-- ==== Sys2Proof/Syntax.lean ====
section
/-!
DEFINITION. The instructions as data: one constructor of `Instr` per row of spec/opcode_table.json, carrying the
modes of the parameters the instruction has (30_encoding.md R61, R67). The operand cells are not part of it: the
engine reads them one at a time while it executes (40_engine.md R84, R86, R87).
-/

namespace Sys2Proof

/-- The three parameter modes (R65). -/
inductive Mode where
  /-- The operand is an address. -/
  | position
  /-- The operand is the literal value. -/
  | immediate
  /-- The operand is an address relative to the relative base. -/
  | relative
deriving DecidableEq, Repr

/-- The ten instructions (R67), each with the modes of its parameters in parameter order. -/
inductive Instr where
  /-- ADD, opcode 1 (R110): two parameters read, the third written. -/
  | add (m1 m2 m3 : Mode)
  /-- MUL, opcode 2 (R112): two parameters read, the third written. -/
  | mul (m1 m2 m3 : Mode)
  /-- IN, opcode 3 (R120): the one parameter is written. -/
  | inp (m1 : Mode)
  /-- OUT, opcode 4 (R122): the one parameter is read. -/
  | out (m1 : Mode)
  /-- JT, opcode 5 (R130): condition and target, both read. -/
  | jt (m1 m2 : Mode)
  /-- JF, opcode 6 (R132): condition and target, both read. -/
  | jf (m1 m2 : Mode)
  /-- LT, opcode 7 (R140): two parameters read, the third written. -/
  | lt (m1 m2 m3 : Mode)
  /-- EQ, opcode 8 (R142): two parameters read, the third written. -/
  | eq (m1 m2 m3 : Mode)
  /-- ARB, opcode 9 (R150): the one parameter is read. -/
  | arb (m1 : Mode)
  /-- HLT, opcode 99 (R160): no parameter. -/
  | hlt
deriving DecidableEq, Repr

/-- The three encoding faults by which the decode stage rejects an instruction word (R66). -/
inductive EncodingFault where
  /-- A negative word, or one whose opcode is not defined (R66, R70). -/
  | unknownOpcode
  /-- A mode digit in 3..9, at any of the three places (R63). -/
  | invalidMode
  /-- Immediate mode on the parameter the instruction writes (R65, R66). -/
  | invalidWriteTarget
deriving DecidableEq, Repr

end Sys2Proof
end

