-- ==== Sys2Proof/WellFormed.lean ====
section
/-!
DEFINITION. Which instructions are legal as syntax: a parameter an instruction writes to is never Immediate
(30_encoding.md R65, R69). Nothing else can be wrong with an `Instr`.
-/

namespace Sys2Proof

/-- `i` is a legal instruction: its destination parameter, if it has one, is not Immediate (R65, R67). -/
def Instr.wf : Instr → Bool
  | .add _ _ m3 => decide (m3 ≠ .immediate)
  | .mul _ _ m3 => decide (m3 ≠ .immediate)
  | .inp m1 => decide (m1 ≠ .immediate)
  | .out _ => true
  | .jt _ _ => true
  | .jf _ _ => true
  | .lt _ _ m3 => decide (m3 ≠ .immediate)
  | .eq _ _ m3 => decide (m3 ≠ .immediate)
  | .arb _ => true
  | .hlt => true

end Sys2Proof
end

