-- ==== Sys2Proof/Decode.lean ====
section
/-!
DEFINITION. The instruction decoder and the encoder (30_encoding.md). The encoding is decimal: the word is
`C B A o o`, most significant digit first, with the opcode in the two low digits (R60).
-/

namespace Sys2Proof

/-- The decimal digit of `raw` at the `10^p` place (00_scope.md section 4). -/
def digit (raw p : Nat) : Nat := raw / 10 ^ p % 10

/-- The mode a mode digit selects, `none` for 3..9 (R65). -/
def modeOfDigit : Nat → Option Mode
  | 0 => some .position
  | 1 => some .immediate
  | 2 => some .relative
  | _ => none

/-- `Decode` of R63, on a non-negative word: the opcode and the three modes, or `none` for
`DecodeError(InvalidMode)`. All three digits are examined whatever the opcode, the opcode is not examined, and the
digits from `10^5` up do not enter (R71). -/
def splitWord (raw : Nat) : Option (Nat × Mode × Mode × Mode) :=
  match modeOfDigit (digit raw 2), modeOfDigit (digit raw 3), modeOfDigit (digit raw 4) with
  | some m1, some m2, some m3 => some (raw % 100, m1, m2, m3)
  | _, _, _ => none

/-- The opcode map of R67; `none` for every opcode it does not list. -/
def instrOf (op : Nat) (m1 m2 m3 : Mode) : Option Instr :=
  match op with
  | 1 => some (.add m1 m2 m3)
  | 2 => some (.mul m1 m2 m3)
  | 3 => some (.inp m1)
  | 4 => some (.out m1)
  | 5 => some (.jt m1 m2)
  | 6 => some (.jf m1 m2)
  | 7 => some (.lt m1 m2 m3)
  | 8 => some (.eq m1 m2 m3)
  | 9 => some (.arb m1)
  | 99 => some .hlt
  | _ => none

/-- The two lines of `Validate` (R66) that reject an Immediate destination: parameter 3 of opcodes 1, 2, 7, 8 and
parameter 1 of opcode 3. -/
def writesImmediate (op : Nat) (m1 m3 : Mode) : Bool :=
  match op with
  | 1 => decide (m3 = .immediate)
  | 2 => decide (m3 = .immediate)
  | 3 => decide (m1 = .immediate)
  | 7 => decide (m3 = .immediate)
  | 8 => decide (m3 = .immediate)
  | _ => false

/-- The decode stage, `Validate` of R66: total on every instruction word, rejecting by name, the checks in the
order R66 gives them. -/
def decode (raw : Int) : Except EncodingFault Instr :=
  if raw < 0 then .error .unknownOpcode
  else
    match splitWord raw.toNat with
    | none => .error .invalidMode
    | some (op, m1, m2, m3) =>
      match instrOf op m1 m2 m3 with
      | none => .error .unknownOpcode
      | some i => if writesImmediate op m1 m3 then .error .invalidWriteTarget else .ok i

/-- The opcode of an instruction (R67). -/
def Instr.opcode : Instr → Nat
  | .add _ _ _ => 1
  | .mul _ _ _ => 2
  | .inp _ => 3
  | .out _ => 4
  | .jt _ _ => 5
  | .jf _ _ => 6
  | .lt _ _ _ => 7
  | .eq _ _ _ => 8
  | .arb _ => 9
  | .hlt => 99

/-- The width of an instruction in cells, `1 +` its parameter count (R61, R68). -/
def Instr.width : Instr → Nat
  | .add _ _ _ => 4
  | .mul _ _ _ => 4
  | .inp _ => 2
  | .out _ => 2
  | .jt _ _ => 3
  | .jf _ _ => 3
  | .lt _ _ _ => 4
  | .eq _ _ _ => 4
  | .arb _ => 2
  | .hlt => 1

/-- The digit that selects a mode (R65). -/
def Mode.toDigit : Mode → Nat
  | .position => 0
  | .immediate => 1
  | .relative => 2

/-- The word `C*10000 + B*1000 + A*100 + op` (R74). -/
def wordOf (a b c op : Nat) : Nat := c * 10000 + b * 1000 + a * 100 + op

/-- The instruction word of an instruction, with the mode digits of parameters it does not have 0 (R60, R67, R74).
Its operand cells follow it in memory as they stand (R62). -/
def encode : Instr → Nat
  | .add m1 m2 m3 => wordOf m1.toDigit m2.toDigit m3.toDigit 1
  | .mul m1 m2 m3 => wordOf m1.toDigit m2.toDigit m3.toDigit 2
  | .inp m1 => wordOf m1.toDigit 0 0 3
  | .out m1 => wordOf m1.toDigit 0 0 4
  | .jt m1 m2 => wordOf m1.toDigit m2.toDigit 0 5
  | .jf m1 m2 => wordOf m1.toDigit m2.toDigit 0 6
  | .lt m1 m2 m3 => wordOf m1.toDigit m2.toDigit m3.toDigit 7
  | .eq m1 m2 m3 => wordOf m1.toDigit m2.toDigit m3.toDigit 8
  | .arb m1 => wordOf m1.toDigit 0 0 9
  | .hlt => wordOf 0 0 0 99

/-- The `k`-th cell of a run of 64-bit two's-complement cells given as one number, cell 0 the least significant
(00_scope.md R2 allows the representation; log 13). -/
def cellOfBits (w k : Nat) : Int :=
  let n := w / 18446744073709551616 ^ k % 18446744073709551616
  if n < 9223372036854775808 then (n : Int) else (n : Int) - 18446744073709551616

/-- The instruction the decoder reads from the first cell of `w`, of which `nbits` bits are given and the rest are
zero; `none` where the decoder rejects the word. -/
def decodeTableWord (nbits w : Nat) : Option Instr :=
  match decode (cellOfBits (w % 2 ^ nbits) 0) with
  | .ok i => some i
  | .error _ => none

end Sys2Proof
end

