-- ==== Sys2Proof/Config.lean ====
section
/-!
DEFINITION. The implementation parameters of 00_scope.md R1 that are constants of the spec. The one open parameter,
`MEM_CAP`, differs from instance to instance (R42, conflict C3) and is carried by `State.memCap`; here is its bound.
-/

namespace Sys2Proof

/-- The largest memory capacity the spec admits, `2^63 - 4` (R1): with it `pc + 4` never leaves `Int64` (R13). -/
def Config.memCapMax : Nat := 9223372036854775804

/-- What a memory cell holds that the program did not initialise and nothing has written: scratch space reads as
zero (R41, R46). -/
def Config.scratchValue : Int := 0

end Sys2Proof
end

