-- ==== Sys2Proof/Machine/Capacity.lean ====
section
/-!
DEFINITION. The memory capacity of the instance `State.reset`. The spec leaves `MEM_CAP` open (00_scope.md R1,
20_memory.md R42): this is the model's choice (log 4), and no statement rests on it.
-/

namespace Sys2Proof.Machine

/-- DESIGN CHOICE (log 4): `State.reset` has the largest capacity R1 admits, a "generously large constant". -/
def resetMemCap : Nat := Config.memCapMax

end Sys2Proof.Machine
end

