-- ==== Sys2Proof/Word.lean ====
section
/-!
DEFINITION. The values of the machine: mathematical integers, with the signed 64-bit range as a predicate
(00_scope.md R1 `XLEN`, R2). No bit-level representation is architectural, so none is given (R2, R47).
-/

namespace Sys2Proof

/-- `v` lies in the signed 64-bit range `Int64` of R1. -/
abbrev InInt64 (v : Int) : Prop :=
  -9223372036854775808 ≤ v ∧ v ≤ 9223372036854775807

/-- Every element of a sequence lies in `Int64`. -/
abbrev AllInt64 (vs : List Int) : Prop := ∀ v ∈ vs, InInt64 v

end Sys2Proof
end

