-- ==== Sys2Proof/Machine/State.lean ====
section
/-!
DEFINITION. The architectural state of one VM instance (10_state.md), the reasons a step can stop, and the state
after reset.
-/

namespace Sys2Proof.Machine

/-- The run state `rs` (R17); `faulted` is the spec's fourth value. -/
inductive RunState where
  | running
  | awaitingInput
  | halted
  | faulted
deriving DecidableEq, Repr

/-- The causes a fault entry can record (60_exceptions.md R170). Code 6 has no constructor: no rule raises it
(R173, which allows this). -/
inductive FaultCause where
  /-- Code 1: a negative word or an opcode that is not defined. -/
  | unknownOpcode
  /-- Code 2: a mode digit not in 0, 1, 2. -/
  | invalidMode
  /-- Code 3: Immediate mode on a destination. -/
  | invalidWriteTarget
  /-- Code 4: a negative address. -/
  | addressUnderflow
  /-- Code 5: an address at or beyond `MEM_CAP`. -/
  | capacityExceeded
  /-- Code 7: the exact result of ADD, MUL or ARB is outside `Int64`. -/
  | arithmeticOverflow
deriving DecidableEq, Repr

/-- A fault being raised, `raise F(info)` (00_scope.md section 4): the cause and its information value. -/
structure Raise where
  cause : FaultCause
  info : Int
deriving DecidableEq, Repr

/-- The signal an activation returns (40_engine.md R81). -/
inductive Signal where
  | halt
  | needInput
  | output (v : Int)
  | fault (code : Fin 8) (info : Int)
deriving DecidableEq, Repr

/-- Where an instance stands with respect to `run_step` calls. THE MODEL'S OWN (log 7): the spec's signal is the
return value of an activation, not stored state (R4). -/
inductive Activation where
  /-- Constructed, no activation yet. -/
  | notStarted
  /-- Inside an activation: the last instruction ended in `continue`. -/
  | looping
  /-- Between activations: the last one returned this signal. -/
  | returned (sig : Signal)
deriving DecidableEq, Repr

/-- Memory as data: pairs of an address and the cell there, a cell being one whole integer (20_memory.md R40, R47;
log 2). An address not listed holds `Config.scratchValue` (R46). -/
abbrev Memory := List (Nat × Int)

/-- The canonical form: addresses strictly rising, and no entry equal to what an unlisted address reads as. -/
abbrev Memory.wf (m : Memory) : Prop :=
  m.Pairwise (fun x y => x.1 < y.1) ∧ ∀ e ∈ m, e.2 ≠ Config.scratchValue

/-- One VM instance (10_state.md R4, R10 to R28). -/
structure State where
  /-- `MEM` (R22). -/
  mem : Memory
  /-- The program counter `pc` (R11). -/
  pc : Int
  /-- The relative base `rb` (R14). -/
  rb : Int
  /-- The run state `rs` (R17). -/
  rs : RunState
  /-- The fault cause `fc`, 0 while no fault has occurred (R20). -/
  fc : Fin 8
  /-- The fault information `fi`, 0 while no fault has occurred (R21). -/
  fi : Int
  /-- The input queue `INQ`, front first (R23). -/
  inq : List Int
  /-- The output log `OUTLOG`, oldest first (R26). -/
  outlog : List Int
  /-- The parameter `MEM_CAP` of this instance (00_scope.md R1; log 3). Nothing writes it. -/
  memCap : Nat
  /-- The model's own: activation status and last signal (log 7). -/
  act : Activation
deriving DecidableEq, Repr

/-- Why a step could stop with a fault. Every fault of the spec has an entry that the model takes as a next state
(R180), and there is no stuck state (00_scope.md R7), so nothing raises the one constructor. -/
inductive Fault where
  /-- Code 6 of R170, the engine's "internal invariant violation": nobody raises it (R173); safe. -/
  | emptyInputConsumedIncorrectly
deriving DecidableEq, Repr

/-- Why the model refuses. No instruction is refused; the constructors but the first are refusals of HOST
operations that the spec gives no meaning (Machine/Instance.lean). -/
inductive Refusal where
  /-- Raised only by an arm of `exec` for an instruction without a meaning; there is no such arm. Safe. -/
  | notModelled (mnemonic : String)
  /-- Raised by `construct`: `MEM_CAP` is outside the bounds of R1. Safe. -/
  | capacityOutOfRange
  /-- Raised by `construct`: the program does not fit, `PLEN > MEM_CAP` (R201). Safe. -/
  | programTooLong
  /-- Raised by `construct` and `pushInput`: a value is outside `Int64` (R94, R201). Safe. -/
  | valueOutsideInt64
  /-- Raised by `pushInput`, `inspectMem` and `inspectOutlog`: the host acts inside an activation (R93). Safe. -/
  | hostDuringActivation
  /-- Raised by `inspectMem`: the address is not in `0 .. MEM_CAP - 1` (R96). Safe. -/
  | noSuchCell
deriving DecidableEq, Repr

/-- The state right after reset (R30, R200): construction with the empty program and no initial inputs, at the
capacity of log 4. A program comes into memory by construction only (`construct`; log 5). -/
def State.reset : State where
  mem := []
  pc := 0
  rb := 0
  rs := .running
  fc := 0
  fi := 0
  inq := []
  outlog := []
  memCap := resetMemCap
  act := .notStarted

end Sys2Proof.Machine
end

