-- ==== Sys2Proof/Machine/Ops.lean ====
section
/-!
DEFINITION. The named operations over memory and registers, and taking a fault (the machine's only exception;
there is no return from one, 60_exceptions.md R182).
-/

namespace Sys2Proof.Machine

/-! ### Memory cells -/

/-- The value of the cell at `a`: the listed one, else what scratch space holds (20_memory.md R46). -/
def Memory.read : Memory → Nat → Int
  | [], _ => Config.scratchValue
  | (b, w) :: rest, a => if b = a then w else Memory.read rest a

/-- The memory with the entry of address `a` taken out. -/
def Memory.without (m : Memory) (a : Nat) : Memory := m.filter (fun e => e.1 ≠ a)

/-- Put an entry before the first one of a higher address. -/
def Memory.place : Memory → Nat → Int → Memory
  | [], a, v => [(a, v)]
  | (b, w) :: rest, a, v => if a < b then (a, v) :: (b, w) :: rest else (b, w) :: Memory.place rest a v

/-- Replace the whole cell at `a` (R44), keeping the canonical form. -/
def Memory.write (m : Memory) (a : Nat) (v : Int) : Memory :=
  if v = Config.scratchValue then Memory.without m a else Memory.place (Memory.without m a) a v

/-- The cells `vs` written from address `a` on. -/
def Memory.writeAll : Memory → Nat → List Int → Memory
  | m, _, [] => m
  | m, a, v :: vs => Memory.writeAll (Memory.write m a v) (a + 1) vs

/-! ### The access primitives -/

/-- The bounds check common to `MemRead`, `MemWrite` and `WriteAddr` (R43, R44; 40_engine.md R87): the address
itself when the cell exists. -/
def checkAddr (s : State) (a : Int) : Except Raise Int :=
  if a < 0 then .error ⟨.addressUnderflow, a⟩
  else if (s.memCap : Int) ≤ a then .error ⟨.capacityExceeded, a⟩
  else .ok a

/-- `MemRead(addr, 1)` (R43). -/
def memRead (s : State) (a : Int) : Except Raise Int :=
  match checkAddr s a with
  | .error r => .error r
  | .ok d => .ok (s.mem.read d.toNat)

/-- `MemWrite(addr, 1, v)` (R44). -/
def memWrite (s : State) (a v : Int) : Except Raise State :=
  match checkAddr s a with
  | .error r => .error r
  | .ok d => .ok { s with mem := s.mem.write d.toNat v }

/-! ### Ending an instruction -/

/-- The numeric code of a cause (60_exceptions.md R170). -/
def FaultCause.code : FaultCause → Fin 8
  | .unknownOpcode => 1
  | .invalidMode => 2
  | .invalidWriteTarget => 3
  | .addressUnderflow => 4
  | .capacityExceeded => 5
  | .arithmeticOverflow => 7

/-- The spec's 2-bit encoding of the run state (10_state.md R17), used nowhere else. -/
def RunState.code : RunState → Fin 4
  | .running => 0
  | .awaitingInput => 1
  | .halted => 2
  | .faulted => 3

/-- The fault a rejected instruction word raises (30_encoding.md R66). -/
def causeOf : EncodingFault → FaultCause
  | .unknownOpcode => .unknownOpcode
  | .invalidMode => .invalidMode
  | .invalidWriteTarget => .invalidWriteTarget

/-- The activation returns signal `g` (`return S`, R81). -/
def State.returnSignal (s : State) (g : Signal) : State := { s with act := .returned g }

/-- The instruction completes with `pc <- p` and `continue`. -/
def State.continueAt (s : State) (p : Int) : State := { s with pc := p, act := .looping }

/-- Fault entry (60_exceptions.md R180): the one operation by which a fault is taken. Nothing but `rs`, `fc`, `fi`
changes, and the activation returns `Fault(fc, fi)`. -/
def State.faultEntry (s : State) (r : Raise) : State :=
  { s with rs := .faulted, fc := r.cause.code, fi := r.info, act := .returned (.fault r.cause.code r.info) }

/-- IN on an empty queue (42_io.md R120): `rs <- AwaitingInput`, `return NeedInput`. -/
def State.suspendForInput (s : State) : State :=
  { s with rs := .awaitingInput, act := .returned .needInput }

/-- HLT (46_halt.md R160): `rs <- Halted`, `return Halt`. -/
def State.halt (s : State) : State := { s with rs := .halted, act := .returned .halt }

/-- What an instruction, or a step, answers. -/
abbrev Answer := Host.Outcome State Fault Refusal

/-- Go on with the value of `x`, or, where `x` raises a fault, take it in `s` (40_engine.md R82: every `raise` is
caught by fault entry, and nothing has been written yet, R88). -/
def orFault {α : Type} (s : State) (x : Except Raise α) (k : α → Answer) : Answer :=
  match x with
  | .error r => .next (s.faultEntry r)
  | .ok a => k a

end Sys2Proof.Machine
end

