-- ==== Sys2Proof/Machine/Flags.lean ====
section
/-!
DEFINITION. The core has no flags (10_state.md R16). In their place stand here the computations on values that
instructions make: the range check of exact results and the 0-or-1 results of comparisons (41_arithmetic.md R114).
-/

namespace Sys2Proof.Machine

/-- An exact result, or `ArithmeticOverflow` with it where it lies outside `Int64` (R110, R112, R150, R114). -/
def inRange (v : Int) : Except Raise Int :=
  if InInt64 v then .ok v else .error ⟨.arithmeticOverflow, v⟩

/-- The sum of ADD and ARB. -/
def addExact (a b : Int) : Except Raise Int := inRange (a + b)

/-- The product of MUL. -/
def mulExact (a b : Int) : Except Raise Int := inRange (a * b)

/-- The result of LT: 1 when the first value is less than the second, as signed values (44_compare.md R140;
log 10). -/
def lessThan (a b : Int) : Except Raise Int := .ok (if a < b then 1 else 0)

/-- The result of EQ (44_compare.md R142). -/
def equals (a b : Int) : Except Raise Int := .ok (if a = b then 1 else 0)

end Sys2Proof.Machine
end

