-- ==== Sys2Proof/Machine/Operands.lean ====
section
/-!
DEFINITION. Operand resolution (40_engine.md R86, R87). Address sums are exact in Z (20_memory.md R45).
-/

namespace Sys2Proof.Machine

/-- `ReadParam(k, m)` (R86): the value of parameter `k` under mode `m`. -/
def readParam (s : State) (k : Int) (m : Mode) : Except Raise Int :=
  match memRead s (s.pc + k) with
  | .error r => .error r
  | .ok o =>
    match m with
    | .position => memRead s o
    | .immediate => .ok o
    | .relative => memRead s (o + s.rb)

/-- `WriteAddr(k, m)` (R87): the checked address parameter `k` designates as a destination. The Immediate case is
the spec's own, kept for totality: the decode stage has rejected it. -/
def writeAddr (s : State) (k : Int) (m : Mode) : Except Raise Int :=
  match memRead s (s.pc + k) with
  | .error r => .error r
  | .ok o =>
    match m with
    | .position => checkAddr s o
    | .immediate => .error ⟨.invalidWriteTarget, s.mem.read s.pc.toNat⟩
    | .relative => checkAddr s (o + s.rb)

end Sys2Proof.Machine
end

