-- ==== Sys2Proof/Machine/Shapes.lean ====
section
/-!
DEFINITION. The two shapes that several instructions share (40_engine.md R88): sources in index order, then the
computation, then the destination, then all state changes together, `pc` last.
-/

namespace Sys2Proof.Machine

/-- ADD, MUL, LT, EQ: compute `f` of parameters 1 and 2 and store it through parameter 3. -/
def storeResult (f : Int → Int → Except Raise Int) (m1 m2 m3 : Mode) (s : State) : Answer :=
  orFault s (readParam s 1 m1) fun a =>
  orFault s (readParam s 2 m2) fun b =>
  orFault s (f a b) fun v =>
  orFault s (writeAddr s 3 m3) fun d =>
  orFault s (memWrite s d v) fun t =>
  .next (t.continueAt (s.pc + 4))

/-- JT, JF: go to the value of parameter 2 where `taken` holds of parameter 1, else to the next instruction. Both
parameters are read either way (43_jump.md R130). -/
def jumpIf (taken : Int → Bool) (m1 m2 : Mode) (s : State) : Answer :=
  orFault s (readParam s 1 m1) fun c =>
  orFault s (readParam s 2 m2) fun t =>
  .next (s.continueAt (if taken c then t else s.pc + 3))

end Sys2Proof.Machine
end

