-- ==== Sys2Proof/Machine/Arithmetic.lean ====
section
/-!
DEFINITION. ADD and MUL (41_arithmetic.md).
-/

namespace Sys2Proof.Machine

/-- ADD (R110). -/
def execAdd (m1 m2 m3 : Mode) (s : State) : Answer := storeResult addExact m1 m2 m3 s

/-- MUL (R112). -/
def execMul (m1 m2 m3 : Mode) (s : State) : Answer := storeResult mulExact m1 m2 m3 s

end Sys2Proof.Machine
end

