-- ==== Sys2Proof/Machine/Compare.lean ====
section
/-!
DEFINITION. LT and EQ (44_compare.md).
-/

namespace Sys2Proof.Machine

/-- LT (R140). -/
def execLt (m1 m2 m3 : Mode) (s : State) : Answer := storeResult lessThan m1 m2 m3 s

/-- EQ (R142). -/
def execEq (m1 m2 m3 : Mode) (s : State) : Answer := storeResult equals m1 m2 m3 s

end Sys2Proof.Machine
end

