-- ==== Sys2Proof/Machine/InputOutput.lean ====
section
/-!
DEFINITION. IN and OUT (42_io.md).
-/

namespace Sys2Proof.Machine

/-- IN (R120): the queue is tested first; the destination is resolved before the pop. -/
def execInp (m1 : Mode) (s : State) : Answer :=
  match s.inq with
  | [] => .next s.suspendForInput
  | v :: q =>
    orFault s (writeAddr s 1 m1) fun d =>
    orFault s (memWrite { s with inq := q } d v) fun t =>
    .next (t.continueAt (s.pc + 2))

/-- OUT (R122): append, advance, and return the value to the host. -/
def execOut (m1 : Mode) (s : State) : Answer :=
  orFault s (readParam s 1 m1) fun v =>
  .next ({ s with outlog := s.outlog ++ [v], pc := s.pc + 2 }.returnSignal (.output v))

end Sys2Proof.Machine
end

