-- ==== Sys2Proof/Machine/Jump.lean ====
section
/-!
DEFINITION. JT and JF (43_jump.md).
-/

namespace Sys2Proof.Machine

/-- JT (R130): taken when the condition is not zero. -/
def execJt (m1 m2 : Mode) (s : State) : Answer := jumpIf (fun c => decide (c ≠ 0)) m1 m2 s

/-- JF (R132): taken when the condition is zero. -/
def execJf (m1 m2 : Mode) (s : State) : Answer := jumpIf (fun c => decide (c = 0)) m1 m2 s

end Sys2Proof.Machine
end

