-- ==== Sys2Proof/Machine/System.lean ====
section
/-!
DEFINITION. ARB (45_relbase.md) and HLT (46_halt.md).
-/

namespace Sys2Proof.Machine

/-- ARB (R150): a Relative parameter is read with the old `rb`. -/
def execArb (m1 : Mode) (s : State) : Answer :=
  orFault s (readParam s 1 m1) fun a =>
  orFault s (addExact s.rb a) fun n =>
  .next ({ s with rb := n }.continueAt (s.pc + 2))

/-- HLT (R160): `pc` stays at the HLT word. -/
def execHlt (s : State) : Answer := .next s.halt

end Sys2Proof.Machine
end

