-- ==== Sys2Proof/Machine/Engine.lean ====
section
/-!
DEFINITION. The engine (40_engine.md R82): activation entry, fetch, decode stage, and one pass of the loop.
-/

namespace Sys2Proof.Machine

/-- Activation entry of an instance that is not terminal: `rs <- Running` (R82, 10_state.md R18). Inside an
activation `rs` is Running already, so it changes nothing there. -/
def State.enterActivation (s : State) : State := { s with rs := .running }

/-- Fetch and decode stage (R84, R85): the instruction at `pc`, or the fault met first. -/
def fetchDecode (s : State) : Except Raise Instr :=
  match memRead s s.pc with
  | .error r => .error r
  | .ok raw =>
    match decode raw with
    | .error e => .error ⟨causeOf e, raw⟩
    | .ok i => .ok i

/-- One pass of the engine (R82, R91). Between activations it is the start of the activation the host calls for
next (log 6); a terminal instance only returns its signal again, without touching memory. -/
def enginePass (s : State) : Answer :=
  match s.rs with
  | .halted => .next (s.returnSignal .halt)
  | .faulted => .next (s.returnSignal (.fault s.fc s.fi))
  | .running => orFault s.enterActivation (fetchDecode s.enterActivation) fun i => exec i s.enterActivation
  | .awaitingInput => orFault s.enterActivation (fetchDecode s.enterActivation) fun i => exec i s.enterActivation

/-- The longest instruction, in cells (30_encoding.md R61). -/
def maxWidth : Nat := 4

/-- The first `n` cells given by the bits of `w`. -/
def cellsOfBits (w : Nat) : Nat → List Int
  | 0 => []
  | n + 1 => cellsOfBits w n ++ [cellOfBits w n]

/-- The state with an instruction of `nbits` given bits stored in the cells from `pc` on, one 64-bit cell after the
other, and runnable: it stands for construction with that program (log 5). -/
def State.placeInstruction (s : State) (nbits w : Nat) : State :=
  { s with
    mem := s.mem.writeAll s.pc.toNat (cellsOfBits (w % 2 ^ nbits) (min maxWidth (s.memCap - s.pc.toNat)))
    rs := .running }

end Sys2Proof.Machine
end

