-- ==== Sys2Proof/Machine/Step.lean ====
section
/-!
DEFINITION. One step of the machine: one pass of the engine's loop (40_engine.md R82; log 6).
-/

namespace Sys2Proof.Machine

def step (s : State) : Host.Outcome State Fault Refusal := enginePass s

def State.withFetchWord (s : State) (nbits w : Nat) : State := s.placeInstruction nbits w

end Sys2Proof.Machine
end

