-- ==== Sys2Proof/Machine/Instance.lean ====
section
/-!
DEFINITION. The host's operations on one instance (40_engine.md R93 to R99, 70_reset_and_hazards.md R200, R201) and
one whole activation, `run_step` (R80, R82, R92). They are no part of `step`: the host calls them (log 6, log 8).
-/

namespace Sys2Proof.Machine

/-- `new(program, initial_inputs)` with capacity `cap` (R30, R95, R201), refused where a precondition fails. -/
def construct (cap : Nat) (program inputs : List Int) : Answer :=
  if cap < 1 ∨ Config.memCapMax < cap then .refused .capacityOutOfRange
  else if cap < program.length then .refused .programTooLong
  else if AllInt64 program ∧ AllInt64 inputs then
    .next { State.reset with mem := Memory.writeAll [] 0 program, inq := inputs, memCap := cap }
  else .refused .valueOutsideInt64

/-- The instance is between activations, where alone the host may act (R93). -/
def State.between (s : State) : Bool := decide (s.act ≠ .looping)

/-- `push_input(v)` (R94). -/
def pushInput (v : Int) (s : State) : Answer :=
  if s.between then
    if InInt64 v then .next { s with inq := s.inq ++ [v] } else .refused .valueOutsideInt64
  else .refused .hostDuringActivation

/-- `inspect_mem(a)` (R96). -/
def inspectMem (a : Int) (s : State) : Except Refusal Int :=
  if s.between then
    if 0 ≤ a ∧ a < s.memCap then .ok (s.mem.read a.toNat) else .error .noSuchCell
  else .error .hostDuringActivation

/-- `inspect_outlog()` (R96). -/
def inspectOutlog (s : State) : Except Refusal (List Int) :=
  if s.between then .ok s.outlog else .error .hostDuringActivation

/-- One call of `run_step` (R82) takes the instance from `s` to `t` and returns `g`. As a relation it adds no bound to
the loop: an activation that never returns relates `s` to nothing (R92). -/
inductive RunStep : State → Signal → State → Prop where
  /-- The pass ends in `return` or in fault entry. -/
  | stop {s t : State} {g : Signal} : step s = .next t → t.act = .returned g → RunStep s g t
  /-- The pass ends in `continue`. -/
  | loop {s t u : State} {g : Signal} :
      step s = .next t → t.act = .looping → RunStep t g u → RunStep s g u

/-- `run_step` under fuel, to run the model: `none` when the fuel does not reach the end of the activation. -/
def runStepFuel : Nat → State → Option (Signal × State)
  | 0, _ => none
  | n + 1, s =>
    match step s with
    | .next t =>
      match t.act with
      | .returned g => some (g, t)
      | .looping => runStepFuel n t
      | .notStarted => none
    | .fault _ => none
    | .refused _ => none

end Sys2Proof.Machine
end

