-- ==== Sys2Proof/Safety.lean ====
section
/-!
DEFINITION. The terms claims are stated in: the invariant of an instance, which states a host can bring about, what
an instruction changed, and when a run has ended.
-/

namespace Sys2Proof.Machine

/-- What the activation status says of the run state, and the other way about (10_state.md R18, R81): the signal
returned last and `rs`, `fc`, `fi`, `OUTLOG` agree. -/
def State.SignalAgrees (s : State) : Prop :=
  match s.act with
  | .notStarted => s.rs = .running ∧ s.outlog = []
  | .looping => s.rs = .running
  | .returned .halt => s.rs = .halted
  | .returned .needInput => s.rs = .awaitingInput
  | .returned (.output v) => s.rs = .running ∧ s.outlog.getLast? = some v
  | .returned (.fault c i) => s.rs = .faulted ∧ s.fc = c ∧ s.fi = i

/-- The instruction at `pc` is `i`: the cell exists and its word decodes to `i`. -/
def State.AtInstr (s : State) (i : Instr) : Prop :=
  0 ≤ s.pc ∧ s.pc < s.memCap ∧ decode (s.mem.read s.pc.toNat) = .ok i

/-- The invariant of an instance (00_scope.md R1, 10_state.md R32 items 1, 2, 4, 5, and R20, R21), with memory in its
canonical form inside the capacity. -/
structure State.Inv (s : State) : Prop where
  /-- R1: `1 <= MEM_CAP <= 2^63 - 4`. -/
  cap : 1 ≤ s.memCap ∧ s.memCap ≤ Config.memCapMax
  /-- Memory is in canonical form. -/
  memWf : s.mem.wf
  /-- No cell is listed that does not exist. -/
  memWithin : ∀ e ∈ s.mem, e.1 < s.memCap
  /-- R32 item 1, for the cells. -/
  memRange : ∀ e ∈ s.mem, InInt64 e.2
  /-- R32 item 1, for `pc`. -/
  pcRange : InInt64 s.pc
  /-- R32 item 1, for `rb`. -/
  rbRange : InInt64 s.rb
  /-- R32 item 1, for `INQ`. -/
  inqRange : AllInt64 s.inq
  /-- R32 item 1, for `OUTLOG`. -/
  outlogRange : AllInt64 s.outlog
  /-- R32 item 2. -/
  fcZero : s.fc = 0 ↔ s.rs ≠ .faulted
  /-- R20, R170, R173: `fc` is 0 or the code of a cause that some rule raises. -/
  fcCode : s.fc = 0 ∨ ∃ c : FaultCause, s.fc = c.code
  /-- R21: `fi` is 0 while no fault has occurred. -/
  fiZero : s.rs ≠ .faulted → s.fi = 0
  /-- R32 item 4: an instance that awaits input stands at a legal IN. -/
  atInput : s.rs = .awaitingInput → ∃ m, s.AtInstr (.inp m) ∧ m ≠ .immediate
  /-- R32 item 5: a halted instance stands at a HLT. -/
  atHalt : s.rs = .halted → s.AtInstr .hlt
  /-- R18, R81. -/
  signal : s.SignalAgrees

/-- The states a host can bring an instance to: by construction, by the engine's steps, and by pushing inputs between
activations (40_engine.md R99). -/
inductive Reachable : State → Prop where
  | construct {cap : Nat} {program inputs : List Int} {t : State} :
      construct cap program inputs = .next t → Reachable t
  | step {s t : State} : Reachable s → step s = .next t → Reachable t
  | push {s t : State} {v : Int} : Reachable s → pushInput v s = .next t → Reachable t

/-- `t` is `s` after an instruction of width `w` that stored `v` in cell `d` and ended in `continue`: no other cell, no
register but `pc`, and nothing else of the machine has changed. -/
structure StoredAndAdvanced (s t : State) (d v w : Int) : Prop where
  cell : t.mem.read d.toNat = v
  otherCells : ∀ x : Nat, x ≠ d.toNat → t.mem.read x = s.mem.read x
  pc : t.pc = s.pc + w
  rb : t.rb = s.rb
  rs : t.rs = s.rs
  fc : t.fc = s.fc
  fi : t.fi = s.fi
  inq : t.inq = s.inq
  outlog : t.outlog = s.outlog
  memCap : t.memCap = s.memCap
  act : t.act = .looping

/-- Everything but the activation status and `pc` is the same in `s` and `t`. -/
structure SameButPc (s t : State) : Prop where
  mem : t.mem = s.mem
  rb : t.rb = s.rb
  rs : t.rs = s.rs
  fc : t.fc = s.fc
  fi : t.fi = s.fi
  inq : t.inq = s.inq
  outlog : t.outlog = s.outlog
  memCap : t.memCap = s.memCap

/-- `t` is `s` after a fault with cause `c` and information `i` was taken (60_exceptions.md R180, R181): nothing of
the program's state has changed. -/
structure FaultTaken (s t : State) (c : FaultCause) (i : Int) : Prop where
  rs : t.rs = .faulted
  fc : t.fc = c.code
  fi : t.fi = i
  act : t.act = .returned (.fault c.code i)
  mem : t.mem = s.mem
  pc : t.pc = s.pc
  rb : t.rb = s.rb
  inq : t.inq = s.inq
  outlog : t.outlog = s.outlog
  memCap : t.memCap = s.memCap

/-- The values a signal carries out of the instance: that of an `Output`, none else (42_io.md R122). -/
def Signal.outputs : Signal → List Int
  | .halt => []
  | .needInput => []
  | .output v => [v]
  | .fault _ _ => []

/-- The instructions that write a memory cell (20_memory.md R49). -/
def storesCell : Instr → Bool
  | .add _ _ _ => true
  | .mul _ _ _ => true
  | .inp _ => true
  | .out _ => false
  | .jt _ _ => false
  | .jf _ _ => false
  | .lt _ _ _ => true
  | .eq _ _ _ => true
  | .arb _ => false
  | .hlt => false

/-- The control transfers (43_jump.md R134). -/
def isJump : Instr → Bool
  | .add _ _ _ => false
  | .mul _ _ _ => false
  | .inp _ => false
  | .out _ => false
  | .jt _ _ => true
  | .jf _ _ => true
  | .lt _ _ _ => false
  | .eq _ _ _ => false
  | .arb _ => false
  | .hlt => false

/-- The instructions that read `rb`: those with a Relative parameter, and ARB (10_state.md R15). -/
def readsRelativeBase : Instr → Bool
  | .add m1 m2 m3 => decide (m1 = .relative ∨ m2 = .relative ∨ m3 = .relative)
  | .mul m1 m2 m3 => decide (m1 = .relative ∨ m2 = .relative ∨ m3 = .relative)
  | .inp m1 => decide (m1 = .relative)
  | .out m1 => decide (m1 = .relative)
  | .jt m1 m2 => decide (m1 = .relative ∨ m2 = .relative)
  | .jf m1 m2 => decide (m1 = .relative ∨ m2 = .relative)
  | .lt m1 m2 m3 => decide (m1 = .relative ∨ m2 = .relative ∨ m3 = .relative)
  | .eq m1 m2 m3 => decide (m1 = .relative ∨ m2 = .relative ∨ m3 = .relative)
  | .arb _ => true
  | .hlt => false

/-- The run of the instance has ended (40_engine.md R98): its last activation returned `Halt` or `Fault`. -/
def State.ended (s : State) : Bool :=
  match s.act with
  | .returned .halt => true
  | .returned (.fault _ _) => true
  | .returned .needInput => false
  | .returned (.output _) => false
  | .looping => false
  | .notStarted => false

/-- The run has ended well: on `Halt` only (R98). -/
def State.endedWell (s : State) : Bool := decide (s.act = .returned .halt)

end Sys2Proof.Machine
end

