-- ==== Sys2Proof/Certificates/Slice0/Obligations.lean ====
section
/-!
DEFINITION. The statements for the provers. Each docstring names the rule or section of spec/ it formalises and, where
a clause rests on a decision the spec marks as its own ([decision: see … Dn]) or on an entry of the log, says so.
`State.act` is how the model shows the signal an activation returns (log 7).
-/

open Sys2Proof Sys2Proof.Machine

/-! ### The decoder and the encoder (30_encoding.md) -/

/-- R64, the source's two worked decodes: `Decode(1002)` and `Decode(11102)` give their opcode and modes, and the
second is rejected by the decode stage as `InvalidWriteTarget`. -/
def Obligations.WorkedDecodesOfTheSource : Prop :=
  splitWord 1002 = some (2, .position, .immediate, .position) ∧
  splitWord 11102 = some (2, .immediate, .immediate, .immediate) ∧
  decode 11102 = .error .invalidWriteTarget

/-- Words of every family written out from the spec's pattern `CBAoo` decode to the instruction they stand for, and
ill words are rejected by name (30_encoding.md section 6). That `-99` is UnknownOpcode is [decision: see
92_eei_decisions.md D5]; that the unused digits of `1099` are checked but else of no effect, D7; that `3050` reports
InvalidMode and not its opcode, and that the decode stage rejects `103` before anything is executed, D8 (log 14,
DEDUCED). -/
def Obligations.SampleWordsDecode : Prop :=
  decode 21101 = .ok (.add .immediate .immediate .relative) ∧
  decode 1002 = .ok (.mul .position .immediate .position) ∧
  decode 203 = .ok (.inp .relative) ∧
  decode 104 = .ok (.out .immediate) ∧
  decode 1105 = .ok (.jt .immediate .immediate) ∧
  decode 1206 = .ok (.jf .relative .immediate) ∧
  decode 20107 = .ok (.lt .immediate .position .relative) ∧
  decode 1008 = .ok (.eq .position .immediate .position) ∧
  decode 109 = .ok (.arb .immediate) ∧
  decode 1099 = .ok .hlt ∧
  decode 3050 = .error .invalidMode ∧
  decode 100 = .error .unknownOpcode ∧
  decode (-99) = .error .unknownOpcode ∧
  decode 103 = .error .invalidWriteTarget

/-- Decode and encode agree: every well-formed instruction is read back from its word, whatever stands in the decimal
digits from `10^5` up (which R71 makes ignored digits, [decision: see 92_eei_decisions.md D6]). -/
def Obligations.DecodeOfEncodeIsIdentity : Prop :=
  ∀ (i : Instr) (h : Nat), i.wf = true → decode ((encode i : Int) + 100000 * (h : Int)) = .ok i

/-- Which words an instruction has, exactly: the word is not negative, the instruction is well-formed, the two low
digits are its opcode, the mode digit of each parameter it has is that of its canonical word, and the other mode
digits are 0, 1 or 2 (30_encoding.md sections 1 to 4; the last is [decision: see 92_eei_decisions.md D7], the refusal
of negative words D5, that no other digit counts D6). -/
def Obligations.DecodesIffDigitsAgree : Prop :=
  ∀ (raw : Int) (i : Instr),
    decode raw = .ok i ↔
      0 ≤ raw ∧ i.wf = true ∧ raw.toNat % 100 = i.opcode ∧
        ∀ k : Nat, 1 ≤ k → k ≤ 3 →
          if k < i.width then digit raw.toNat (k + 1) = digit (encode i) (k + 1) else digit raw.toNat (k + 1) ≤ 2

/-- The set of legal instruction words is exactly the one 30_encoding.md section 4 gives (the exclusion of negative
words is [decision: see 92_eei_decisions.md D5], that the digits from `10^5` up never matter D6, the check of unused
digits D7; D6 is log 9, DEDUCED and unsafe, the others log 14, DEDUCED). -/
def Obligations.LegalWordsExactly : Prop :=
  ∀ raw : Int,
    (∃ i, decode raw = .ok i) ↔
      0 ≤ raw ∧ digit raw.toNat 2 ≤ 2 ∧ digit raw.toNat 3 ≤ 2 ∧ digit raw.toNat 4 ≤ 2 ∧
        raw.toNat % 100 ∈ [1, 2, 3, 4, 5, 6, 7, 8, 9, 99] ∧
        (raw.toNat % 100 ∈ [1, 2, 7, 8] → digit raw.toNat 4 ≠ 1) ∧
        (raw.toNat % 100 = 3 → digit raw.toNat 2 ≠ 1)

/-- Which encoding fault a word reports: a bad mode digit wins over an unknown opcode, which wins over an Immediate
destination (30_encoding.md section 2; the treatment of negative words is [decision: see 92_eei_decisions.md D5], that
the digits from `10^5` up never matter D6, that a bad digit of a parameter the opcode lacks is InvalidMode D7, the order
D8; D6 is log 9, DEDUCED and unsafe, the others log 14, DEDUCED). -/
def Obligations.EncodingFaultPriority : Prop :=
  ∀ raw : Int,
    (decode raw = .error .unknownOpcode ↔
      raw < 0 ∨ (digit raw.toNat 2 ≤ 2 ∧ digit raw.toNat 3 ≤ 2 ∧ digit raw.toNat 4 ≤ 2 ∧
        raw.toNat % 100 ∉ [1, 2, 3, 4, 5, 6, 7, 8, 9, 99])) ∧
    (decode raw = .error .invalidMode ↔
      0 ≤ raw ∧ (2 < digit raw.toNat 2 ∨ 2 < digit raw.toNat 3 ∨ 2 < digit raw.toNat 4)) ∧
    (decode raw = .error .invalidWriteTarget ↔
      0 ≤ raw ∧ digit raw.toNat 2 ≤ 2 ∧ digit raw.toNat 3 ≤ 2 ∧ digit raw.toNat 4 ≤ 2 ∧
        ((raw.toNat % 100 ∈ [1, 2, 7, 8] ∧ digit raw.toNat 4 = 1) ∨ (raw.toNat % 100 = 3 ∧ digit raw.toNat 2 = 1)))

/-- The length of a decoded instruction follows from the two low digits alone: 4 cells for opcodes 1, 2, 7, 8; 3 for
5, 6; 2 for 3, 4, 9; 1 for 99 (30_encoding.md sections 1 and 3). -/
def Obligations.LengthFromOpcodeAlone : Prop :=
  ∀ (raw : Int) (i : Instr), decode raw = .ok i →
    i.width = if raw % 100 = 99 then 1 else if raw % 100 ∈ [3, 4, 9] then 2 else if raw % 100 ∈ [5, 6] then 3 else 4

/-! ### Memory and operand resolution (20_memory.md, 40_engine.md section 2) -/

/-- R44, `MemWrite`: a negative address and one at or beyond `MEM_CAP` are raised; else the whole cell is replaced,
no other cell and no register changes; and after `WriteAddr` the raise lines never fire. -/
def Obligations.MemWriteReplacesOneCell : Prop :=
  ∀ (s : State) (a v : Int),
    (a < 0 → memWrite s a v = .error ⟨.addressUnderflow, a⟩) ∧
    (0 ≤ a → (s.memCap : Int) ≤ a → memWrite s a v = .error ⟨.capacityExceeded, a⟩) ∧
    (0 ≤ a → a < s.memCap → ∃ t, memWrite s a v = .ok t ∧ t.mem.read a.toNat = v ∧
      (∀ x : Nat, (x : Int) ≠ a → t.mem.read x = s.mem.read x) ∧ t = { s with mem := t.mem }) ∧
    (∀ (k : Int) (m : Mode), writeAddr s k m = .ok a → ∃ t, memWrite s a v = .ok t)

/-- A read returns the value of the most recent write to its cell, and is otherwise what it was, faults included
(20_memory.md sections 2 and 4). -/
def Obligations.MemReadGivesLastWrite : Prop :=
  ∀ (s t : State) (a b v : Int), memWrite s a v = .ok t →
    memRead t b = if b = a then .ok v else memRead s b

/-- `ReadParam(k, m)`, every mode and every fault, in terms of cells (40_engine.md section 2; that a negative operand
or `pc + k` underflows is [decision: see 92_eei_decisions.md D9], the capacity bound D10, exact sums D4). -/
def Obligations.ReadParamByMode : Prop :=
  ∀ (s : State) (k : Int) (m : Mode),
    readParam s k m =
      if s.pc + k < 0 then .error ⟨.addressUnderflow, s.pc + k⟩
      else if (s.memCap : Int) ≤ s.pc + k then .error ⟨.capacityExceeded, s.pc + k⟩
      else
        let o := s.mem.read (s.pc + k).toNat
        let a := if m = .relative then o + s.rb else o
        if m = .immediate then .ok o
        else if a < 0 then .error ⟨.addressUnderflow, a⟩
        else if (s.memCap : Int) ≤ a then .error ⟨.capacityExceeded, a⟩
        else .ok (s.mem.read a.toNat)

/-- `WriteAddr(k, m)`: every mode and every fault, in terms of cells, the Immediate case of totality included
(40_engine.md section 2). -/
def Obligations.WriteAddrByMode : Prop :=
  ∀ (s : State) (k : Int) (m : Mode),
    writeAddr s k m =
      if s.pc + k < 0 then .error ⟨.addressUnderflow, s.pc + k⟩
      else if (s.memCap : Int) ≤ s.pc + k then .error ⟨.capacityExceeded, s.pc + k⟩
      else
        let o := s.mem.read (s.pc + k).toNat
        let a := if m = .relative then o + s.rb else o
        if m = .immediate then .error ⟨.invalidWriteTarget, s.mem.read s.pc.toNat⟩
        else if a < 0 then .error ⟨.addressUnderflow, a⟩
        else if (s.memCap : Int) ≤ a then .error ⟨.capacityExceeded, a⟩
        else .ok a

/-- A store is seen by the very next fetch of that cell: what is fetched there is the decoding of the value stored, and
an illegal value raises its fault with the value as information (20_memory.md section 4, 60_exceptions.md section 1;
the information is [decision: see 92_eei_decisions.md D14], log 14). -/
def Obligations.StoreIsSeenByNextFetch : Prop :=
  ∀ (s t : State) (a v : Int), memWrite s a v = .ok t →
    fetchDecode { t with pc := a } =
      match decode v with
      | .ok i => .ok i
      | .error .unknownOpcode => .error ⟨.unknownOpcode, v⟩
      | .error .invalidMode => .error ⟨.invalidMode, v⟩
      | .error .invalidWriteTarget => .error ⟨.invalidWriteTarget, v⟩

/-! ### One step -/

/-- When the cell at the program counter exists and decodes to `i`, a step of an instance that is not terminal is `i`
executed with `rs` Running, and nothing else around it (40_engine.md section 1; that one step is one pass of the
loop, the start of an activation included, is the model's choice, log 6). -/
def Obligations.StepRunsDecodedInstruction : Prop :=
  ∀ (s : State) (i : Instr), (s.rs = .running ∨ s.rs = .awaitingInput) → s.AtInstr i →
    step s = exec i { s with rs := .running }

/-- A terminal instance only returns its signal again: nothing but the activation status is touched (40_engine.md
section 3; for Faulted [decision: see 92_eei_decisions.md D13]). -/
def Obligations.TerminalStepOnlyAnswers : Prop :=
  ∀ s : State,
    (s.rs = .halted → step s = .next { s with act := .returned .halt }) ∧
    (s.rs = .faulted → step s = .next { s with act := .returned (.fault s.fc s.fi) })

/-- A fetch from a cell that does not exist faults, with `pc` as information and the code 4 or 5 in `fc` (40_engine.md
section 1, 60_exceptions.md sections 1 and 4; [decision: see 92_eei_decisions.md D9, D10, D12, D13, D14], logs 12 and
14). -/
def Obligations.FetchOutsideMemoryFaults : Prop :=
  ∀ s : State, (s.rs = .running ∨ s.rs = .awaitingInput) →
    (s.pc < 0 → ∃ t, step s = .next t ∧ FaultTaken s t .addressUnderflow s.pc ∧ t.fc = 4) ∧
    (0 ≤ s.pc → (s.memCap : Int) ≤ s.pc →
      ∃ t, step s = .next t ∧ FaultTaken s t .capacityExceeded s.pc ∧ t.fc = 5)

/-- An illegal word at the program counter faults before anything else happens, IN's queue test included: each of the
three encoding faults is taken as its own cause, with its own code in `fc` and the word as information (40_engine.md
section 1, 60_exceptions.md sections 1 and 4; [decision: see 92_eei_decisions.md D8, D12, D13, D14], logs 12 and 14). -/
def Obligations.IllegalWordFaults : Prop :=
  ∀ (s : State) (w : Int), (s.rs = .running ∨ s.rs = .awaitingInput) → 0 ≤ s.pc → s.pc < s.memCap →
    s.mem.read s.pc.toNat = w →
    (decode w = .error .unknownOpcode → ∃ t, step s = .next t ∧ FaultTaken s t .unknownOpcode w ∧ t.fc = 1) ∧
    (decode w = .error .invalidMode → ∃ t, step s = .next t ∧ FaultTaken s t .invalidMode w ∧ t.fc = 2) ∧
    (decode w = .error .invalidWriteTarget →
      ∃ t, step s = .next t ∧ FaultTaken s t .invalidWriteTarget w ∧ t.fc = 3)

/-! ### The instructions: what they do when they complete -/

/-- ADD completes when its parameters read, the exact sum is in `Int64` and its destination resolves: it stores the sum
(41_arithmetic.md, ADD). -/
def Obligations.AddStoresExactSum : Prop :=
  ∀ (s : State) (m1 m2 m3 : Mode) (a b d : Int),
    readParam s 1 m1 = .ok a → readParam s 2 m2 = .ok b → InInt64 (a + b) → writeAddr s 3 m3 = .ok d →
    ∃ t, exec (.add m1 m2 m3) s = .next t ∧ StoredAndAdvanced s t d (a + b) 4

/-- MUL completes when its parameters read, the exact product is in `Int64` and its destination resolves: it stores the
product (41_arithmetic.md, MUL). -/
def Obligations.MulStoresExactProduct : Prop :=
  ∀ (s : State) (m1 m2 m3 : Mode) (a b d : Int),
    readParam s 1 m1 = .ok a → readParam s 2 m2 = .ok b → InInt64 (a * b) → writeAddr s 3 m3 = .ok d →
    ∃ t, exec (.mul m1 m2 m3) s = .next t ∧ StoredAndAdvanced s t d (a * b) 4

/-- LT stores 1 when parameter 1 is less than parameter 2, else 0 (44_compare.md, LT; the direction is [decision: see
92_eei_decisions.md D23], log 10). -/
def Obligations.LtStoresOneOrZero : Prop :=
  ∀ (s : State) (m1 m2 m3 : Mode) (a b d : Int),
    readParam s 1 m1 = .ok a → readParam s 2 m2 = .ok b → writeAddr s 3 m3 = .ok d →
    ∃ t, exec (.lt m1 m2 m3) s = .next t ∧ StoredAndAdvanced s t d (if a < b then 1 else 0) 4

/-- EQ whole (44_compare.md, EQ): the word `CBA08` with `C` not 1 and the width 4, the faults in the order they are tested
([decision: see 92_eei_decisions.md D11], log 14), each taken precisely (D12, D13, log 12; all DEDUCED), and 1 or 0 stored
when there is none. -/
def Obligations.EqStoresOneOrZero : Prop :=
  ∀ (s : State) (m1 m2 m3 : Mode),
    (m3 ≠ .immediate → decode (wordOf m1.toDigit m2.toDigit m3.toDigit 8 : Nat) = .ok (.eq m1 m2 m3)) ∧
    (Instr.eq m1 m2 m3).width = 4 ∧
    (∀ r, readParam s 1 m1 = .error r →
      ∃ t, exec (.eq m1 m2 m3) s = .next t ∧ FaultTaken s t r.cause r.info) ∧
    (∀ a r, readParam s 1 m1 = .ok a → readParam s 2 m2 = .error r →
      ∃ t, exec (.eq m1 m2 m3) s = .next t ∧ FaultTaken s t r.cause r.info) ∧
    (∀ a b r, readParam s 1 m1 = .ok a → readParam s 2 m2 = .ok b → writeAddr s 3 m3 = .error r →
      ∃ t, exec (.eq m1 m2 m3) s = .next t ∧ FaultTaken s t r.cause r.info) ∧
    (∀ a b d, readParam s 1 m1 = .ok a → readParam s 2 m2 = .ok b → writeAddr s 3 m3 = .ok d →
      ∃ t, exec (.eq m1 m2 m3) s = .next t ∧ StoredAndAdvanced s t d (if a = b then 1 else 0) 4)

/-- IN with a value in the queue completes when its destination resolves: the front value is removed and stored
(42_io.md, IN). -/
def Obligations.InStoresFrontOfQueue : Prop :=
  ∀ (s : State) (m1 : Mode) (v d : Int) (q : List Int),
    s.inq = v :: q → writeAddr s 1 m1 = .ok d →
    ∃ t, exec (.inp m1) s = .next t ∧ StoredAndAdvanced { s with inq := q } t d v 2

/-- IN on an empty queue suspends, whatever its destination: `rs` is AwaitingInput, the activation returns `NeedInput`,
and nothing else changes (42_io.md, IN; 10_state.md section 3.1). -/
def Obligations.InSuspendsOnEmptyQueue : Prop :=
  ∀ (s : State) (m1 : Mode), s.inq = [] →
    exec (.inp m1) s = .next { s with rs := .awaitingInput, act := .returned .needInput }

/-- OUT whole (42_io.md, OUT): the word `CBA04` with `B`, `C` unused but valid digits and the width 2; a parameter that
does not read is a fault taken with nothing changed ([decision: see 92_eei_decisions.md D12, D13], log 12, DEDUCED); else
exactly one value is appended, `pc` advances by 2, and the activation returns that value. -/
def Obligations.OutAppendsAndReturns : Prop :=
  ∀ (s : State) (m1 : Mode),
    (∀ b c : Nat, b ≤ 2 → c ≤ 2 → decode (wordOf m1.toDigit b c 4 : Nat) = .ok (.out m1)) ∧
    (Instr.out m1).width = 2 ∧
    (∀ r, readParam s 1 m1 = .error r → ∃ t, exec (.out m1) s = .next t ∧ FaultTaken s t r.cause r.info) ∧
    (∀ v, readParam s 1 m1 = .ok v →
      exec (.out m1) s =
        .next { s with outlog := s.outlog ++ [v], pc := s.pc + 2, act := .returned (.output v) })

/-- JT: with both parameters read, `pc` becomes the value of parameter 2 when parameter 1 is not zero, negative targets
and targets beyond memory included ([decision: see 92_eei_decisions.md D16]), else `pc + 3` (43_jump.md, JT). -/
def Obligations.JtJumpsWhenNotZero : Prop :=
  ∀ (s : State) (m1 m2 : Mode) (c a : Int),
    readParam s 1 m1 = .ok c → readParam s 2 m2 = .ok a →
    ∃ t, exec (.jt m1 m2) s = .next t ∧ SameButPc s t ∧ t.act = .looping ∧
      t.pc = if c ≠ 0 then a else s.pc + 3

/-- JF whole (43_jump.md, JF): the word `CBA06` with `C` unused but a valid digit and the width 3; both parameters are read
whether or not the jump is taken, a fault of parameter 1 and then of parameter 2 is taken ([decision: see
92_eei_decisions.md D11], log 14; how it is taken D12, D13, log 12), and with both read `pc` becomes the value of
parameter 2 when parameter 1 is zero, targets without a cell included (D16, log 14; all DEDUCED), else `pc + 3`. -/
def Obligations.JfJumpsWhenZero : Prop :=
  ∀ (s : State) (m1 m2 : Mode),
    (∀ c : Nat, c ≤ 2 → decode (wordOf m1.toDigit m2.toDigit c 6 : Nat) = .ok (.jf m1 m2)) ∧
    (Instr.jf m1 m2).width = 3 ∧
    (∀ r, readParam s 1 m1 = .error r → ∃ t, exec (.jf m1 m2) s = .next t ∧ FaultTaken s t r.cause r.info) ∧
    (∀ c r, readParam s 1 m1 = .ok c → readParam s 2 m2 = .error r →
      ∃ t, exec (.jf m1 m2) s = .next t ∧ FaultTaken s t r.cause r.info) ∧
    (∀ c a, readParam s 1 m1 = .ok c → readParam s 2 m2 = .ok a →
      ∃ t, exec (.jf m1 m2) s = .next t ∧ SameButPc s t ∧ t.act = .looping ∧
        t.pc = if c = 0 then a else s.pc + 3)

/-- ARB completes when its parameter reads (a Relative one with the old `rb`) and the exact sum is in `Int64`: `rb`
becomes the sum (45_relbase.md). -/
def Obligations.ArbAddsToRelativeBase : Prop :=
  ∀ (s : State) (m1 : Mode) (a : Int), readParam s 1 m1 = .ok a → InInt64 (s.rb + a) →
    exec (.arb m1) s = .next { s with rb := s.rb + a, pc := s.pc + 2, act := .looping }

/-- HLT halts the instance in every state: `rs` is Halted, the activation returns `Halt`, nothing else changes, `pc`
included ([decision: see 92_eei_decisions.md D17]) (46_halt.md). -/
def Obligations.HltHalts : Prop :=
  ∀ s : State, exec .hlt s = .next { s with rs := .halted, act := .returned .halt }

/-! ### The instructions: where they fault -/

/-- ADD, MUL and LT: a fault of parameter 1 is taken first, then one of parameter 2, and, when both read and the exact
result is in range, one of the destination (60_exceptions.md section 3; [decision: see 92_eei_decisions.md D11], log 14;
how it is taken D12, D13, log 12; all DEDUCED). -/
def Obligations.StoringInstructionsFaultInOrder : Prop :=
  ∀ (s : State) (i : Instr) (m1 m2 m3 : Mode), i = .add m1 m2 m3 ∨ i = .mul m1 m2 m3 ∨ i = .lt m1 m2 m3 →
    (∀ r, readParam s 1 m1 = .error r → ∃ t, exec i s = .next t ∧ FaultTaken s t r.cause r.info) ∧
    (∀ a r, readParam s 1 m1 = .ok a → readParam s 2 m2 = .error r →
      ∃ t, exec i s = .next t ∧ FaultTaken s t r.cause r.info) ∧
    (∀ a b r, readParam s 1 m1 = .ok a → readParam s 2 m2 = .ok b →
      (i = .add m1 m2 m3 → InInt64 (a + b)) → (i = .mul m1 m2 m3 → InInt64 (a * b)) →
      writeAddr s 3 m3 = .error r → ∃ t, exec i s = .next t ∧ FaultTaken s t r.cause r.info)

/-- ADD, MUL and ARB never wrap: an exact result outside `Int64` is the fault ArithmeticOverflow, code 7, with that result
as information, whatever the destination is (41_arithmetic.md, 45_relbase.md, 60_exceptions.md sections 1 and 4;
[decision: see 92_eei_decisions.md D3, D11 to D14], logs 12 and 14, DEDUCED). -/
def Obligations.OverflowFaults : Prop :=
  (∀ (s : State) (m1 m2 m3 : Mode) (a b : Int),
    readParam s 1 m1 = .ok a → readParam s 2 m2 = .ok b → ¬ InInt64 (a + b) →
    ∃ t, exec (.add m1 m2 m3) s = .next t ∧ FaultTaken s t .arithmeticOverflow (a + b) ∧ t.fc = 7) ∧
  (∀ (s : State) (m1 m2 m3 : Mode) (a b : Int),
    readParam s 1 m1 = .ok a → readParam s 2 m2 = .ok b → ¬ InInt64 (a * b) →
    ∃ t, exec (.mul m1 m2 m3) s = .next t ∧ FaultTaken s t .arithmeticOverflow (a * b) ∧ t.fc = 7) ∧
  (∀ (s : State) (m1 : Mode) (a : Int), readParam s 1 m1 = .ok a → ¬ InInt64 (s.rb + a) →
    ∃ t, exec (.arb m1) s = .next t ∧ FaultTaken s t .arithmeticOverflow (s.rb + a) ∧ t.fc = 7)

/-- IN with a value in the queue and a destination that does not resolve faults with the queue intact ([decision: see
92_eei_decisions.md D12]); ARB and JT fault where a parameter does not read, JT also when the jump is not taken
(42_io.md, 43_jump.md, 45_relbase.md; the order of JT's two reads is D11, log 14; how a fault is taken D12, D13, log 12;
all DEDUCED). -/
def Obligations.InArbJtFaults : Prop :=
  (∀ (s : State) (m1 : Mode) (r : Raise), s.inq ≠ [] → writeAddr s 1 m1 = .error r →
    ∃ t, exec (.inp m1) s = .next t ∧ FaultTaken s t r.cause r.info) ∧
  (∀ (s : State) (m1 : Mode) (r : Raise), readParam s 1 m1 = .error r →
    ∃ t, exec (.arb m1) s = .next t ∧ FaultTaken s t r.cause r.info) ∧
  (∀ (s : State) (m1 m2 : Mode) (r : Raise),
    (readParam s 1 m1 = .error r ∨ ∃ c, readParam s 1 m1 = .ok c ∧ readParam s 2 m2 = .error r) →
    ∃ t, exec (.jt m1 m2) s = .next t ∧ FaultTaken s t r.cause r.info)

/-! ### Frames -/

/-- What ADD, MUL, LT and EQ leave unchanged: `rb`, the queues, the capacity; `rs`, `fc`, `fi` unless a fault is taken;
every cell but the one `WriteAddr` gives as the destination, and every cell where it gives none (10_state.md, 20_memory.md
section 3). -/
def Obligations.StoringInstructionsFrame : Prop :=
  ∀ (s t : State) (i : Instr) (m1 m2 m3 : Mode),
    i = .add m1 m2 m3 ∨ i = .mul m1 m2 m3 ∨ i = .lt m1 m2 m3 ∨ i = .eq m1 m2 m3 → exec i s = .next t →
    t.rb = s.rb ∧ t.inq = s.inq ∧ t.outlog = s.outlog ∧ t.memCap = s.memCap ∧
    (t.rs = .faulted ∨ (t.rs = s.rs ∧ t.fc = s.fc ∧ t.fi = s.fi)) ∧
    (∀ d, writeAddr s 3 m3 = .ok d → ∀ x : Nat, (x : Int) ≠ d → t.mem.read x = s.mem.read x) ∧
    (∀ r, writeAddr s 3 m3 = .error r → ∀ x : Nat, t.mem.read x = s.mem.read x)

/-- What IN leaves unchanged: `rb`, the output log, the capacity; the queue but for its front; `fc`, `fi` unless a fault
is taken; every cell but the one `WriteAddr` gives as the destination, and every cell where it gives none or the queue
is empty. -/
def Obligations.InFrame : Prop :=
  ∀ (s t : State) (m1 : Mode), exec (.inp m1) s = .next t →
    t.rb = s.rb ∧ t.outlog = s.outlog ∧ t.memCap = s.memCap ∧
    (t.inq = s.inq ∨ ∃ v, s.inq = v :: t.inq) ∧
    (t.rs = .faulted ∨ (t.fc = s.fc ∧ t.fi = s.fi ∧ (t.rs = s.rs ∨ (s.inq = [] ∧ t.rs = .awaitingInput)))) ∧
    (∀ d, writeAddr s 1 m1 = .ok d → ∀ x : Nat, (x : Int) ≠ d → t.mem.read x = s.mem.read x) ∧
    (∀ r, writeAddr s 1 m1 = .error r → ∀ x : Nat, t.mem.read x = s.mem.read x) ∧
    (s.inq = [] → ∀ x : Nat, t.mem.read x = s.mem.read x)

/-- What OUT, JT, JF, ARB and HLT leave unchanged: all of memory, the input queue, the capacity; `rb` but for ARB; the
output log but for OUT; `rs`, `fc`, `fi` unless a fault is taken, and `rs` by HLT. -/
def Obligations.NonStoringInstructionsFrame : Prop :=
  ∀ (s t : State) (i : Instr), storesCell i = false → exec i s = .next t →
    t.mem = s.mem ∧ t.inq = s.inq ∧ t.memCap = s.memCap ∧
    ((∀ m1, i ≠ .arb m1) → t.rb = s.rb) ∧ ((∀ m1, i ≠ .out m1) → t.outlog = s.outlog) ∧
    (t.rs = .faulted ∨ (t.fc = s.fc ∧ t.fi = s.fi ∧ (t.rs = s.rs ∨ (i = .hlt ∧ t.rs = .halted))))

/-! ### Rules of the whole machine -/

/-- There is no stuck state, no stop and no refusal: every state has a next one (00_scope.md section 6). -/
def Obligations.EveryStepAnswersNext : Prop :=
  ∀ s : State, ∃ t, step s = .next t

/-- R15: `rb` is written by ARB only, and an instruction with no Relative parameter that is not ARB does not read it. -/
def Obligations.OnlyArbWritesRelativeBase : Prop :=
  ∀ (s t : State) (i : Instr), exec i s = .next t →
    (t.rb ≠ s.rb → ∃ m1, i = .arb m1) ∧
    (readsRelativeBase i = false → ∀ r : Int, exec i { s with rb := r } = .next { t with rb := r })

/-- Only a control transfer sets `pc` to anything but `pc +` width: any other step leaves `pc` at the instruction (a
fault, an IN that suspends, a HLT, a terminal instance) or moves it past the instruction executed (43_jump.md section
on control transfer, 10_state.md section 1.1). -/
def Obligations.OnlyJumpsLeaveTheProgramOrder : Prop :=
  ∀ s t : State, step s = .next t →
    t.pc = s.pc ∨
    (∃ i, s.AtInstr i ∧ t.pc = s.pc + i.width) ∨
    (∃ i a, s.AtInstr i ∧ isJump i = true ∧ t.pc = a ∧ ∃ m, readParam s 2 m = .ok a ∧
      ∃ m1, i = .jt m1 m ∨ i = .jf m1 m)

/-- The output log is append-only: a step appends exactly one value and returns exactly that value, or leaves the log
and returns no `Output` (10_state.md section 5). -/
def Obligations.OutputLogGrowsByItsSignal : Prop :=
  ∀ s t : State, step s = .next t →
    (t.outlog = s.outlog ∧ ∀ v, t.act ≠ .returned (.output v)) ∨
    (∃ v m1, s.AtInstr (.out m1) ∧ t.outlog = s.outlog ++ [v] ∧ t.act = .returned (.output v))

/-- The input queue changes by one removal from its front, by a completed IN only (10_state.md section 5, 42_io.md, IN;
that an IN that faults leaves the queue intact is [decision: see 92_eei_decisions.md D12], log 12, DEDUCED). -/
def Obligations.OnlyInTakesFromTheQueue : Prop :=
  ∀ s t : State, step s = .next t →
    t.inq = s.inq ∨ (∃ v m1, s.AtInstr (.inp m1) ∧ s.inq = v :: t.inq ∧ t.act = .looping)

/-- The one cell a step may change is the one `WriteAddr` gives for the instruction at `pc`: parameter 3 of ADD, MUL, LT
and EQ, parameter 1 of IN. Every cell stays where `WriteAddr` gives none, where IN finds the queue empty, where the
instruction is none of the five or cannot be fetched, where the instance is terminal, and where the step faults
(20_memory.md section 3, 60_exceptions.md section 4; the last is [decision: see 92_eei_decisions.md D12], log 12); the
capacity never changes (20_memory.md section 1). -/
def Obligations.StepChangesAtMostOneCell : Prop :=
  ∀ s t : State, step s = .next t →
    t.memCap = s.memCap ∧
    (∀ (i : Instr) (m1 m2 m3 : Mode), s.AtInstr i →
      i = .add m1 m2 m3 ∨ i = .mul m1 m2 m3 ∨ i = .lt m1 m2 m3 ∨ i = .eq m1 m2 m3 →
      (∀ d, writeAddr s 3 m3 = .ok d → ∀ x : Nat, (x : Int) ≠ d → t.mem.read x = s.mem.read x) ∧
      (∀ r, writeAddr s 3 m3 = .error r → ∀ x : Nat, t.mem.read x = s.mem.read x)) ∧
    (∀ m1 : Mode, s.AtInstr (.inp m1) →
      (∀ d, writeAddr s 1 m1 = .ok d → ∀ x : Nat, (x : Int) ≠ d → t.mem.read x = s.mem.read x) ∧
      (∀ r, writeAddr s 1 m1 = .error r → ∀ x : Nat, t.mem.read x = s.mem.read x) ∧
      (s.inq = [] → ∀ x : Nat, t.mem.read x = s.mem.read x)) ∧
    ((∀ i : Instr, s.AtInstr i → storesCell i = false) ∨ s.rs = .halted ∨ s.rs = .faulted ∨ t.rs = .faulted →
      ∀ x : Nat, t.mem.read x = s.mem.read x)

/-- Faults are precise: a step that ends Faulted, from a state that was not, has changed nothing of the program's state
(60_exceptions.md section 4; [decision: see 92_eei_decisions.md D12, D13]). -/
def Obligations.FaultsArePrecise : Prop :=
  ∀ s t : State, step s = .next t → s.rs ≠ .faulted → t.rs = .faulted → ∃ c i, FaultTaken s t c i

/-- An activation ends only at an OUT that completed, an IN that found the queue empty, a HLT, or a fault; at every other
instruction that does not fault it goes on (40_engine.md section 3). What the fault leaves, Faulted
with `fc` and `fi` and nothing else changed, is [decision: see 92_eei_decisions.md D12, D13] (log 12, DEDUCED). -/
def Obligations.ActivationEndsOnlyAtSuspensionPoints : Prop :=
  ∀ s t : State, (s.rs = .running ∨ s.rs = .awaitingInput) → step s = .next t →
    t.act = .looping ∨
    (∃ v m1, s.AtInstr (.out m1) ∧ t.act = .returned (.output v)) ∨
    (∃ m1, s.AtInstr (.inp m1) ∧ s.inq = [] ∧ t.act = .returned .needInput) ∨
    (s.AtInstr .hlt ∧ t.act = .returned .halt) ∨
    (∃ c i, FaultTaken s t c i)

/-- The invariant of an instance is kept by every step: all values stay in `Int64`, memory stays canonical and inside
the capacity, the fault registers and the run state agree, and so do the run state, the instruction at `pc` and the
signal (10_state.md section 8). -/
def Obligations.InvariantKeptByEveryStep : Prop :=
  ∀ s t : State, s.Inv → step s = .next t → t.Inv

/-- The invariant holds at reset (whose capacity is the model's choice, log 4). -/
def Obligations.InvariantHoldsAtReset : Prop := State.reset.Inv

/-- The invariant holds of every newly constructed instance. -/
def Obligations.InvariantHoldsAfterConstruction : Prop :=
  ∀ (cap : Nat) (program inputs : List Int) (t : State), construct cap program inputs = .next t → t.Inv

/-- The invariant holds of every state a host can bring an instance to, by construction, activations and pushes in any
order, and the number of steps does not matter (10_state.md section 8). -/
def Obligations.EveryReachableStateIsSound : Prop :=
  ∀ s : State, Reachable s → s.Inv

/-! ### Whole activations and the host (40_engine.md sections 3 and 4) -/

/-- An activation of a sound instance that returns, returns a signal that agrees with the state it leaves, which is sound
again: `Halt` with Halted, `NeedInput` with AwaitingInput, `Output(v)` with Running and `v` last in the log,
`Fault(c, i)` with Faulted, `fc = c` and `fi = i` (40_engine.md section 1, 10_state.md section 3.1; the Fault clause is
[decision: see 92_eei_decisions.md D13], log 12, DEDUCED). -/
def Obligations.ActivationReturnsAgreeingSignal : Prop :=
  ∀ (s t : State) (g : Signal), s.Inv → RunStep s g t →
    t.Inv ∧ t.act = .returned g ∧
    match g with
    | .halt => t.rs = .halted
    | .needInput => t.rs = .awaitingInput ∧ t.inq = []
    | .output v => t.rs = .running ∧ t.outlog.getLast? = some v
    | .fault c i => t.rs = .faulted ∧ t.fc = c ∧ t.fi = i

/-- There is no non-determinism, and nothing private passes from one activation to the next: the signal of an activation
that returns, and every field it leaves, are fixed by the cells, `pc`, `rb`, the queue, the capacity and `fc`, `fi` at its
start. Whether the instance was Running or awaited input, what it returned last (`act` is the model's own, log 7) and
what it has output before are of no influence; to the log the activation adds just what its signal carries (00_scope.md
section 6, 40_engine.md section 3, 10_state.md section 5). The activations of terminal instances are
TerminalActivationRepeatsSignal. -/
def Obligations.ActivationIsDeterministic : Prop :=
  ∀ (s t : State) (g : Signal), (s.rs = .running ∨ s.rs = .awaitingInput) → RunStep s g t →
    t.outlog = s.outlog ++ g.outputs ∧
    ∀ (log : List Int) (r : RunState) (a : Activation), (r = .running ∨ r = .awaitingInput) →
      ∀ (g' : Signal) (t' : State),
        RunStep { s with outlog := log, rs := r, act := a } g' t' ↔
          g' = g ∧ t' = { t with outlog := log ++ g.outputs }

/-- Running an activation under enough fuel is the activation: the executable form and the relation agree. -/
def Obligations.FuelledRunIsTheActivation : Prop :=
  ∀ (s t : State) (g : Signal), RunStep s g t ↔ ∃ n, runStepFuel n s = some (g, t)

/-- A suspended IN keeps no partial state: calling `run_step` again on an empty queue returns `NeedInput` again and
changes nothing at all (40_engine.md section 3). -/
def Obligations.SuspendedInputRetriesUnchanged : Prop :=
  ∀ s : State, s.Inv → s.rs = .awaitingInput → s.inq = [] → RunStep s .needInput s

/-- After a push, `run_step` on an instance that returned `NeedInput` completes the suspended IN before anything else: the
first step stores the value pushed through that IN's destination (40_engine.md section 3; that the push leaves
AwaitingInput and the next activation leaves it is [decision: see 92_eei_decisions.md D18, D20]). -/
def Obligations.PushThenResumeCompletesInput : Prop :=
  ∀ (s : State) (v : Int), s.Inv → s.rs = .awaitingInput → s.inq = [] → InInt64 v →
    ∃ (u : State) (m1 : Mode), pushInput v s = .next u ∧ s.AtInstr (.inp m1) ∧
      ∀ d, writeAddr s 1 m1 = .ok d → ∃ t, step u = .next t ∧ StoredAndAdvanced { s with rs := .running } t d v 2

/-- A terminal instance answers every `run_step` with its signal, at once, and nothing but the activation status is
touched (10_state.md section 3.1; for Faulted [decision: see 92_eei_decisions.md D13]). -/
def Obligations.TerminalActivationRepeatsSignal : Prop :=
  ∀ (s t : State) (g : Signal),
    (s.rs = .halted → (RunStep s g t ↔ g = .halt ∧ t = { s with act := .returned .halt })) ∧
    (s.rs = .faulted →
      (RunStep s g t ↔ g = .fault s.fc s.fi ∧ t = { s with act := .returned (.fault s.fc s.fi) }))

/-- An activation need not return: a JT with both parameters Immediate, a true condition and its own address as target
loops for ever (40_engine.md section 3, 43_jump.md, JT). -/
def Obligations.SelfJumpNeverReturns : Prop :=
  ∀ s : State, (s.rs = .running ∨ s.rs = .awaitingInput) → s.AtInstr (.jt .immediate .immediate) →
    s.pc + 2 < s.memCap → s.mem.read (s.pc + 1).toNat ≠ 0 → s.mem.read (s.pc + 2).toNat = s.pc →
    ¬ ∃ g t, RunStep s g t

/-- `push_input` between activations appends at the back and changes nothing else, in every run state (40_engine.md
section 4; [decision: see 92_eei_decisions.md D20]); inside an activation it has no meaning. -/
def Obligations.PushAppendsBetweenActivations : Prop :=
  ∀ (s : State) (v : Int), InInt64 v →
    (s.act ≠ .looping → pushInput v s = .next { s with inq := s.inq ++ [v] }) ∧
    (s.act = .looping → pushInput v s = .refused .hostDuringActivation)

/-- Values pushed behind those present are taken after them: with a value in the queue, a step does the same whatever
stands behind it, and leaves it behind (10_state.md section 5, the order of arrival). -/
def Obligations.LaterInputsWaitBehind : Prop :=
  ∀ (s t : State) (q : List Int), s.inq ≠ [] → step s = .next t →
    step { s with inq := s.inq ++ q } = .next { t with inq := t.inq ++ q }

/-- No instruction reads the output log: a step from another log does the same and appends the same (10_state.md section
5). -/
def Obligations.OutputLogIsNeverRead : Prop :=
  ∀ (s t : State) (log : List Int), step s = .next t →
    ∃ d, t.outlog = s.outlog ++ d ∧ step { s with outlog := log } = .next { t with outlog := log ++ d }

/-- Construction with legal arguments gives the reset state: the program cell for cell from address 0, zero in every other
cell, the inputs in order, `pc = 0` ([decision: see 92_eei_decisions.md D15]), `rb = 0`, Running, `fc = fi = 0`, an
empty log (10_state.md section 7, 70_reset_and_hazards.md section 1; `act` is the model's own, log 7). -/
def Obligations.ConstructionGivesResetState : Prop :=
  ∀ (cap : Nat) (program inputs : List Int),
    1 ≤ cap → cap ≤ 9223372036854775804 → program.length ≤ cap → AllInt64 program → AllInt64 inputs →
    ∃ t, construct cap program inputs = .next t ∧
      (∀ a : Nat, t.mem.read a = if h : a < program.length then program[a] else 0) ∧
      t.pc = 0 ∧ t.rb = 0 ∧ t.rs = .running ∧ t.fc = 0 ∧ t.fi = 0 ∧ t.inq = inputs ∧ t.outlog = [] ∧
      t.memCap = cap ∧ t.act = .notStarted

/-- Construction whose preconditions fail creates no instance (70_reset_and_hazards.md section 1; [decision: see
92_eei_decisions.md D22]). -/
def Obligations.ConstructionRefusesBadArguments : Prop :=
  ∀ (cap : Nat) (program inputs : List Int),
    (cap < 1 ∨ 9223372036854775804 < cap ∨ cap < program.length ∨ ¬ AllInt64 program ∨ ¬ AllInt64 inputs) →
    ∃ r, construct cap program inputs = .refused r

/-! ### The codes of the causes, ARB in terms of cells, and the invariant under a push -/

/-- The code each cause of a fault has, and what fault entry does with it: `fc` and the signal hold the code of that
cause, `fi` and the signal its information (60_exceptions.md sections 1 and 4; the numbers are [decision: see
92_eei_decisions.md D14], cause 7 D3, the entry D12, D13: logs 12 and 14, DEDUCED). -/
def Obligations.FaultEntryRecordsCode : Prop :=
  ∀ (s : State) (c : FaultCause) (info : Int),
    let code : Fin 8 :=
      match c with
      | .unknownOpcode => 1
      | .invalidMode => 2
      | .invalidWriteTarget => 3
      | .addressUnderflow => 4
      | .capacityExceeded => 5
      | .arithmeticOverflow => 7
    c.code = code ∧
    s.faultEntry ⟨c, info⟩ =
      { s with rs := .faulted, fc := code, fi := info, act := .returned (.fault code info) }

/-- ARB completes in every mode, said of cells: with its operand cell in memory, the cell it addresses in memory (the
old `rb` added where the mode is Relative) and the exact sum in `Int64`, `rb` becomes the sum, `pc` advances by 2 and the
loop continues (45_relbase.md, 40_engine.md section 2; where it faults instead is [decision: see 92_eei_decisions.md D3,
D9, D10]). -/
def Obligations.ArbCompletesInEveryMode : Prop :=
  ∀ (s : State) (o : Int), 0 ≤ s.pc + 1 → s.pc + 1 < s.memCap → s.mem.read (s.pc + 1).toNat = o →
    (InInt64 (s.rb + o) →
      exec (.arb .immediate) s = .next { s with rb := s.rb + o, pc := s.pc + 2, act := .looping }) ∧
    (0 ≤ o → o < s.memCap → InInt64 (s.rb + s.mem.read o.toNat) →
      exec (.arb .position) s =
        .next { s with rb := s.rb + s.mem.read o.toNat, pc := s.pc + 2, act := .looping }) ∧
    (0 ≤ o + s.rb → o + s.rb < s.memCap → InInt64 (s.rb + s.mem.read (o + s.rb).toNat) →
      exec (.arb .relative) s =
        .next { s with rb := s.rb + s.mem.read (o + s.rb).toNat, pc := s.pc + 2, act := .looping })

/-- A push keeps the invariant of an instance, as every step does (10_state.md section 8, 40_engine.md section 4; that a
push is possible in every run state is [decision: see 92_eei_decisions.md D20], log 14, DEDUCED). -/
def Obligations.InvariantKeptByPush : Prop :=
  ∀ (s t : State) (v : Int), s.Inv → pushInput v s = .next t → t.Inv
end

