-- ==== Sys2Proof/Laws/Decode.lean ====
section
/-!
SUPPORT. What the decoder does, case by case.
-/

namespace Sys2Proof

theorem modeOfDigit_some {d : Nat} {m : Mode} : modeOfDigit d = some m ↔ d = m.toDigit := by
  rcases d with _ | _ | _ | d <;> cases m <;> simp [modeOfDigit, Mode.toDigit]

theorem modeOfDigit_none {d : Nat} : modeOfDigit d = none ↔ 2 < d := by
  rcases d with _ | _ | _ | d <;> simp [modeOfDigit]

/-- Which words split, and into what. -/
theorem splitWord_some {raw op : Nat} {m1 m2 m3 : Mode} :
    splitWord raw = some (op, m1, m2, m3) ↔
      op = raw % 100 ∧ digit raw 2 = m1.toDigit ∧ digit raw 3 = m2.toDigit ∧ digit raw 4 = m3.toDigit := by
  simp only [← modeOfDigit_some]
  unfold splitWord
  split
  · next h1 h2 h3 => simp [h1, h2, h3, eq_comm]
  · next h =>
    simp only [reduceCtorEq, false_iff, not_and]
    intro _ h1 h2 h3
    exact h _ _ _ h1 h2 h3

/-- Which words do not split. -/
theorem splitWord_none {raw : Nat} :
    splitWord raw = none ↔ 2 < digit raw 2 ∨ 2 < digit raw 3 ∨ 2 < digit raw 4 := by
  simp only [← modeOfDigit_none]
  unfold splitWord
  split
  · next h1 h2 h3 => simp [h1, h2, h3]
  · next h =>
    simp only [true_iff]
    by_contra hc
    simp only [not_or, ← ne_eq, Option.ne_none_iff_exists'] at hc
    obtain ⟨⟨m1, h1⟩, ⟨m2, h2⟩, m3, h3⟩ := hc
    exact h _ _ _ h1 h2 h3

/-- A decoded word is not negative, splits, its opcode is defined, and its destination is not Immediate. -/
theorem decode_ok {raw : Int} {i : Instr} :
    decode raw = .ok i ↔
      0 ≤ raw ∧ ∃ op m1 m2 m3, splitWord raw.toNat = some (op, m1, m2, m3) ∧ instrOf op m1 m2 m3 = some i ∧
        writesImmediate op m1 m3 = false := by
  unfold decode
  split
  · next h => simp only [reduceCtorEq, false_iff, not_and]; omega
  · next h =>
    have h0 : 0 ≤ raw := by omega
    simp only [h0, true_and]
    split
    · next hs => simp [hs]
    · next op m1 m2 m3 hs =>
      simp only [hs, Option.some.injEq, Prod.mk.injEq]
      constructor
      · intro h1
        split at h1
        · cases h1
        · next j hj =>
          split at h1
          · cases h1
          · next hw =>
            cases h1
            exact ⟨op, m1, m2, m3, ⟨rfl, rfl, rfl, rfl⟩, hj, by simpa using hw⟩
      · rintro ⟨_, _, _, _, ⟨rfl, rfl, rfl, rfl⟩, h1, h2⟩
        simp [h1, h2]

/-- The opcode of the instruction the map gives is the opcode it was asked for. -/
theorem opcode_of_instrOf {op : Nat} {m1 m2 m3 : Mode} {i : Instr} (h : instrOf op m1 m2 m3 = some i) :
    i.opcode = op := by
  unfold instrOf at h
  split at h <;> cases h <;> rfl

end Sys2Proof
end

