-- ==== Sys2Proof/Laws/Memory.lean ====
section
/-!
SUPPORT. The laws of memory: read after write, every other cell unchanged, and the canonical form kept by every
operation. The read laws hold of every list of entries, canonical or not.
-/

namespace Sys2Proof.Machine

/-! ### Reading -/

@[simp] theorem Memory.read_nil (a : Nat) : Memory.read [] a = Config.scratchValue := rfl

@[simp] theorem Memory.read_cons (b a : Nat) (w : Int) (m : Memory) :
    Memory.read ((b, w) :: m) a = if b = a then w else Memory.read m a := rfl

/-- A cell holds what scratch space holds, or what the list says. -/
theorem Memory.read_eq_or_mem (m : Memory) (a : Nat) :
    Memory.read m a = Config.scratchValue ∨ (a, Memory.read m a) ∈ m := by
  induction m with
  | nil => exact .inl rfl
  | cons e m ih =>
    obtain ⟨b, w⟩ := e
    by_cases h : b = a
    · subst h; simp
    · simp only [Memory.read_cons, if_neg h, List.mem_cons]
      exact ih.imp id .inr

/-- If every listed cell is in `Int64`, so is every cell. -/
theorem Memory.read_inInt64 {m : Memory} (h : ∀ e ∈ m, InInt64 e.2) (a : Nat) : InInt64 (Memory.read m a) := by
  rcases Memory.read_eq_or_mem m a with h0 | h1
  · rw [h0]; decide
  · exact h _ h1

/-! ### `Memory.without` and `Memory.place` -/

theorem Memory.mem_without {m : Memory} {a : Nat} {e : Nat × Int} : e ∈ Memory.without m a ↔ e ∈ m ∧ e.1 ≠ a := by
  simp [Memory.without]

theorem Memory.mem_place {m : Memory} {a : Nat} {v : Int} {e : Nat × Int} :
    e ∈ Memory.place m a v ↔ e = (a, v) ∨ e ∈ m := by
  induction m with
  | nil => simp [Memory.place]
  | cons x m ih =>
    obtain ⟨b, w⟩ := x
    simp only [Memory.place]
    split
    · simp
    · simp only [List.mem_cons, ih]; tauto

theorem Memory.read_without_self (m : Memory) (a : Nat) :
    Memory.read (Memory.without m a) a = Config.scratchValue := by
  rcases Memory.read_eq_or_mem (Memory.without m a) a with h | h
  · exact h
  · exact absurd rfl (Memory.mem_without.mp h).2

theorem Memory.read_without_of_ne (m : Memory) {a x : Nat} (h : x ≠ a) :
    Memory.read (Memory.without m a) x = Memory.read m x := by
  induction m with
  | nil => rfl
  | cons e m ih =>
    obtain ⟨b, w⟩ := e
    simp only [Memory.without, ne_eq, decide_not] at ih ⊢
    by_cases hb : b = a
    · subst hb; simp [ih, h.symm]
    · simp [hb, ih]

theorem Memory.read_place_self {m : Memory} {a : Nat} (h : ∀ e ∈ m, e.1 ≠ a) (v : Int) :
    Memory.read (Memory.place m a v) a = v := by
  induction m with
  | nil => simp [Memory.place]
  | cons e m ih =>
    obtain ⟨b, w⟩ := e
    have hb : b ≠ a := h (b, w) (List.mem_cons_self ..)
    simp only [Memory.place]
    split
    · simp
    · simp only [Memory.read_cons, if_neg hb]
      exact ih fun e he => h e (List.mem_cons_of_mem _ he)

theorem Memory.read_place_of_ne (m : Memory) {a x : Nat} (h : x ≠ a) (v : Int) :
    Memory.read (Memory.place m a v) x = Memory.read m x := by
  induction m with
  | nil => simp [Memory.place, h.symm]
  | cons e m ih =>
    obtain ⟨b, w⟩ := e
    simp only [Memory.place]
    split
    · simp [h.symm]
    · simp [ih]

/-! ### `Memory.write` -/

/-- A read after a write of the same cell gives the value written. -/
@[simp] theorem Memory.read_write_self (m : Memory) (a : Nat) (v : Int) :
    Memory.read (Memory.write m a v) a = v := by
  unfold Memory.write
  split
  · next h => rw [Memory.read_without_self, h]
  · exact Memory.read_place_self (fun e he => (Memory.mem_without.mp he).2) v

/-- A write changes no other cell. -/
theorem Memory.read_write_of_ne (m : Memory) {a x : Nat} (h : x ≠ a) (v : Int) :
    Memory.read (Memory.write m a v) x = Memory.read m x := by
  unfold Memory.write
  split
  · exact Memory.read_without_of_ne m h
  · rw [Memory.read_place_of_ne _ h, Memory.read_without_of_ne m h]

/-- What a write can list: the entry written, where its value is not what scratch space holds, and old entries. -/
theorem Memory.mem_write {m : Memory} {a : Nat} {v : Int} {e : Nat × Int} (h : e ∈ Memory.write m a v) :
    (e = (a, v) ∧ v ≠ Config.scratchValue) ∨ e ∈ m := by
  unfold Memory.write at h
  split at h
  · exact .inr (Memory.mem_without.mp h).1
  · next hv => exact (Memory.mem_place.mp h).imp (⟨·, hv⟩) fun h => (Memory.mem_without.mp h).1

/-! ### The canonical form -/

theorem Memory.without_wf {m : Memory} (h : m.wf) (a : Nat) : Memory.wf (Memory.without m a) :=
  ⟨h.1.filter _, fun e he => h.2 e (Memory.mem_without.mp he).1⟩

theorem Memory.place_wf {m : Memory} (h : m.wf) {a : Nat} (ha : ∀ e ∈ m, e.1 ≠ a) {v : Int}
    (hv : v ≠ Config.scratchValue) : Memory.wf (Memory.place m a v) := by
  induction m with
  | nil => exact ⟨List.pairwise_singleton _ _, by simpa [Memory.place] using hv⟩
  | cons e m ih =>
    obtain ⟨b, w⟩ := e
    obtain ⟨hs, hn⟩ := h
    rw [List.pairwise_cons] at hs
    have hb : b ≠ a := ha (b, w) (List.mem_cons_self ..)
    refine ⟨?_, fun e he => ?_⟩
    · simp only [Memory.place]
      split
      · next hab =>
        refine List.pairwise_cons.mpr ⟨fun e he => ?_, List.pairwise_cons.mpr hs⟩
        rcases List.mem_cons.mp he with rfl | he
        · exact hab
        · exact hab.trans (hs.1 e he)
      · next hab =>
        refine List.pairwise_cons.mpr ⟨fun e he => ?_, ?_⟩
        · rcases Memory.mem_place.mp he with rfl | he
          · show b < a; omega
          · exact hs.1 e he
        · exact (ih ⟨hs.2, fun e he => hn e (List.mem_cons_of_mem _ he)⟩
            fun e he => ha e (List.mem_cons_of_mem _ he)).1
    · rcases Memory.mem_place.mp he with rfl | he
      · exact hv
      · exact hn e he

theorem Memory.write_wf {m : Memory} (h : m.wf) (a : Nat) (v : Int) : Memory.wf (Memory.write m a v) := by
  unfold Memory.write
  split
  · exact Memory.without_wf h a
  · next hv => exact Memory.place_wf (Memory.without_wf h a) (fun e he => (Memory.mem_without.mp he).2) hv

theorem Memory.writeAll_wf {m : Memory} (h : m.wf) (a : Nat) (vs : List Int) :
    Memory.wf (Memory.writeAll m a vs) := by
  induction vs generalizing m a with
  | nil => exact h
  | cons v vs ih => exact ih (Memory.write_wf h a v) (a + 1)

theorem State.reset_mem_wf : State.reset.mem.wf := by decide

/-! ### `Memory.writeAll` -/

/-- A cell outside the run written keeps its value. -/
theorem Memory.read_writeAll_of_outside (m : Memory) (a : Nat) (vs : List Int) {x : Nat}
    (h : x < a ∨ a + vs.length ≤ x) : Memory.read (Memory.writeAll m a vs) x = Memory.read m x := by
  induction vs generalizing m a with
  | nil => rfl
  | cons v vs ih =>
    simp only [List.length_cons] at h
    simp only [Memory.writeAll]
    rw [ih _ _ (by omega), Memory.read_write_of_ne _ (by omega)]

/-- The `k`-th cell of the run holds the `k`-th value. -/
theorem Memory.read_writeAll (m : Memory) (a : Nat) (vs : List Int) {k : Nat} (h : k < vs.length) :
    Memory.read (Memory.writeAll m a vs) (a + k) = vs[k] := by
  induction vs generalizing m a k with
  | nil => simp at h
  | cons v vs ih =>
    simp only [Memory.writeAll]
    cases k with
    | zero => rw [Nat.add_zero, Memory.read_writeAll_of_outside _ _ _ (by omega)]; simp
    | succ k =>
      simp only [List.length_cons] at h
      have := ih (Memory.write m a v) (a + 1) (k := k) (by omega)
      rw [show a + (k + 1) = a + 1 + k by omega, this]; simp

/-- What `writeAll` can list. -/
theorem Memory.mem_writeAll {m : Memory} {a : Nat} {vs : List Int} {e : Nat × Int}
    (h : e ∈ Memory.writeAll m a vs) : (e.2 ∈ vs ∧ a ≤ e.1 ∧ e.1 < a + vs.length) ∨ e ∈ m := by
  induction vs generalizing m a with
  | nil => exact .inr h
  | cons v vs ih =>
    rcases ih h with ⟨h1, h2, h3⟩ | h1
    · left; simp only [List.length_cons, List.mem_cons]; exact ⟨.inr h1, by omega, by omega⟩
    · rcases Memory.mem_write h1 with ⟨rfl, -⟩ | h1
      · left; simp
      · exact .inr h1

end Sys2Proof.Machine
end

