-- ==== Sys2Proof/Laws/State.lean ====
section
/-!
SUPPORT. What each field of the state is after each named update of it, one lemma per field and update, so that no
proof unfolds a record update.
-/

namespace Sys2Proof.Machine

/-! ### `State.returnSignal` -/

@[simp] theorem State.returnSignal_mem (s : State) (g : Signal) : (s.returnSignal g).mem = s.mem := rfl
@[simp] theorem State.returnSignal_pc (s : State) (g : Signal) : (s.returnSignal g).pc = s.pc := rfl
@[simp] theorem State.returnSignal_rb (s : State) (g : Signal) : (s.returnSignal g).rb = s.rb := rfl
@[simp] theorem State.returnSignal_rs (s : State) (g : Signal) : (s.returnSignal g).rs = s.rs := rfl
@[simp] theorem State.returnSignal_fc (s : State) (g : Signal) : (s.returnSignal g).fc = s.fc := rfl
@[simp] theorem State.returnSignal_fi (s : State) (g : Signal) : (s.returnSignal g).fi = s.fi := rfl
@[simp] theorem State.returnSignal_inq (s : State) (g : Signal) : (s.returnSignal g).inq = s.inq := rfl
@[simp] theorem State.returnSignal_outlog (s : State) (g : Signal) : (s.returnSignal g).outlog = s.outlog := rfl
@[simp] theorem State.returnSignal_memCap (s : State) (g : Signal) : (s.returnSignal g).memCap = s.memCap := rfl
@[simp] theorem State.returnSignal_act (s : State) (g : Signal) : (s.returnSignal g).act = .returned g := rfl

/-! ### `State.continueAt` -/

@[simp] theorem State.continueAt_mem (s : State) (p : Int) : (s.continueAt p).mem = s.mem := rfl
@[simp] theorem State.continueAt_pc (s : State) (p : Int) : (s.continueAt p).pc = p := rfl
@[simp] theorem State.continueAt_rb (s : State) (p : Int) : (s.continueAt p).rb = s.rb := rfl
@[simp] theorem State.continueAt_rs (s : State) (p : Int) : (s.continueAt p).rs = s.rs := rfl
@[simp] theorem State.continueAt_fc (s : State) (p : Int) : (s.continueAt p).fc = s.fc := rfl
@[simp] theorem State.continueAt_fi (s : State) (p : Int) : (s.continueAt p).fi = s.fi := rfl
@[simp] theorem State.continueAt_inq (s : State) (p : Int) : (s.continueAt p).inq = s.inq := rfl
@[simp] theorem State.continueAt_outlog (s : State) (p : Int) : (s.continueAt p).outlog = s.outlog := rfl
@[simp] theorem State.continueAt_memCap (s : State) (p : Int) : (s.continueAt p).memCap = s.memCap := rfl
@[simp] theorem State.continueAt_act (s : State) (p : Int) : (s.continueAt p).act = .looping := rfl

/-! ### `State.faultEntry` -/

@[simp] theorem State.faultEntry_mem (s : State) (r : Raise) : (s.faultEntry r).mem = s.mem := rfl
@[simp] theorem State.faultEntry_pc (s : State) (r : Raise) : (s.faultEntry r).pc = s.pc := rfl
@[simp] theorem State.faultEntry_rb (s : State) (r : Raise) : (s.faultEntry r).rb = s.rb := rfl
@[simp] theorem State.faultEntry_rs (s : State) (r : Raise) : (s.faultEntry r).rs = .faulted := rfl
@[simp] theorem State.faultEntry_fc (s : State) (r : Raise) : (s.faultEntry r).fc = r.cause.code := rfl
@[simp] theorem State.faultEntry_fi (s : State) (r : Raise) : (s.faultEntry r).fi = r.info := rfl
@[simp] theorem State.faultEntry_inq (s : State) (r : Raise) : (s.faultEntry r).inq = s.inq := rfl
@[simp] theorem State.faultEntry_outlog (s : State) (r : Raise) : (s.faultEntry r).outlog = s.outlog := rfl
@[simp] theorem State.faultEntry_memCap (s : State) (r : Raise) : (s.faultEntry r).memCap = s.memCap := rfl
@[simp] theorem State.faultEntry_act (s : State) (r : Raise) : (s.faultEntry r).act = .returned (.fault r.cause.code r.info) := rfl

/-! ### `State.suspendForInput` -/

@[simp] theorem State.suspendForInput_mem (s : State) : s.suspendForInput.mem = s.mem := rfl
@[simp] theorem State.suspendForInput_pc (s : State) : s.suspendForInput.pc = s.pc := rfl
@[simp] theorem State.suspendForInput_rb (s : State) : s.suspendForInput.rb = s.rb := rfl
@[simp] theorem State.suspendForInput_rs (s : State) : s.suspendForInput.rs = .awaitingInput := rfl
@[simp] theorem State.suspendForInput_fc (s : State) : s.suspendForInput.fc = s.fc := rfl
@[simp] theorem State.suspendForInput_fi (s : State) : s.suspendForInput.fi = s.fi := rfl
@[simp] theorem State.suspendForInput_inq (s : State) : s.suspendForInput.inq = s.inq := rfl
@[simp] theorem State.suspendForInput_outlog (s : State) : s.suspendForInput.outlog = s.outlog := rfl
@[simp] theorem State.suspendForInput_memCap (s : State) : s.suspendForInput.memCap = s.memCap := rfl
@[simp] theorem State.suspendForInput_act (s : State) : s.suspendForInput.act = .returned .needInput := rfl

/-! ### `State.halt` -/

@[simp] theorem State.halt_mem (s : State) : s.halt.mem = s.mem := rfl
@[simp] theorem State.halt_pc (s : State) : s.halt.pc = s.pc := rfl
@[simp] theorem State.halt_rb (s : State) : s.halt.rb = s.rb := rfl
@[simp] theorem State.halt_rs (s : State) : s.halt.rs = .halted := rfl
@[simp] theorem State.halt_fc (s : State) : s.halt.fc = s.fc := rfl
@[simp] theorem State.halt_fi (s : State) : s.halt.fi = s.fi := rfl
@[simp] theorem State.halt_inq (s : State) : s.halt.inq = s.inq := rfl
@[simp] theorem State.halt_outlog (s : State) : s.halt.outlog = s.outlog := rfl
@[simp] theorem State.halt_memCap (s : State) : s.halt.memCap = s.memCap := rfl
@[simp] theorem State.halt_act (s : State) : s.halt.act = .returned .halt := rfl

/-! ### `State.enterActivation` -/

@[simp] theorem State.enterActivation_mem (s : State) : s.enterActivation.mem = s.mem := rfl
@[simp] theorem State.enterActivation_pc (s : State) : s.enterActivation.pc = s.pc := rfl
@[simp] theorem State.enterActivation_rb (s : State) : s.enterActivation.rb = s.rb := rfl
@[simp] theorem State.enterActivation_rs (s : State) : s.enterActivation.rs = .running := rfl
@[simp] theorem State.enterActivation_fc (s : State) : s.enterActivation.fc = s.fc := rfl
@[simp] theorem State.enterActivation_fi (s : State) : s.enterActivation.fi = s.fi := rfl
@[simp] theorem State.enterActivation_inq (s : State) : s.enterActivation.inq = s.inq := rfl
@[simp] theorem State.enterActivation_outlog (s : State) : s.enterActivation.outlog = s.outlog := rfl
@[simp] theorem State.enterActivation_memCap (s : State) : s.enterActivation.memCap = s.memCap := rfl
@[simp] theorem State.enterActivation_act (s : State) : s.enterActivation.act = s.act := rfl

/-- Entering an activation twice is entering it once. -/
@[simp] theorem State.enterActivation_enterActivation (s : State) :
    s.enterActivation.enterActivation = s.enterActivation := rfl

/-- Inside an activation `rs` is Running and entry changes nothing (40_engine.md R82). -/
theorem State.enterActivation_of_running (s : State) (h : s.rs = .running) : s.enterActivation = s := by
  cases s; cases h; rfl

end Sys2Proof.Machine
end

