-- ==== Sys2Proof/Laws/Operands.lean ====
section
/-!
SUPPORT. What the access primitives, operand resolution and `orFault` can do, said once each.
-/

namespace Sys2Proof.Machine

/-! ### `checkAddr`, `memRead`, `memWrite` -/

/-- The bounds check answers exactly the address of a cell that exists. -/
theorem checkAddr_ok {s : State} {a d : Int} : checkAddr s a = .ok d ↔ d = a ∧ 0 ≤ a ∧ a < s.memCap := by
  unfold checkAddr
  split
  · simp; omega
  · split
    · simp; omega
    · simp; omega

/-- The two ways the bounds check fails, and with what information. -/
theorem checkAddr_error {s : State} {a : Int} {r : Raise} :
    checkAddr s a = .error r ↔
      (a < 0 ∧ r = ⟨.addressUnderflow, a⟩) ∨ (0 ≤ a ∧ (s.memCap : Int) ≤ a ∧ r = ⟨.capacityExceeded, a⟩) := by
  unfold checkAddr
  split
  · next h => simp [h, not_le.mpr h, eq_comm]
  · next h =>
    split
    · next h' => simp [h, h', not_lt.mp h, eq_comm]
    · next h' => simp [h, h']

theorem memRead_ok {s : State} {a v : Int} :
    memRead s a = .ok v ↔ 0 ≤ a ∧ a < s.memCap ∧ v = s.mem.read a.toNat := by
  unfold memRead
  split
  · next r h =>
    have := checkAddr_error.mp h
    simp; omega
  · next d h =>
    obtain ⟨rfl, h0, h1⟩ := checkAddr_ok.mp h
    simp [h0, h1, eq_comm]

theorem memRead_error {s : State} {a : Int} {r : Raise} : memRead s a = .error r ↔ checkAddr s a = .error r := by
  unfold memRead
  split <;> simp_all

theorem memWrite_ok {s t : State} {a v : Int} :
    memWrite s a v = .ok t ↔ 0 ≤ a ∧ a < s.memCap ∧ t = { s with mem := s.mem.write a.toNat v } := by
  unfold memWrite
  split
  · next r h =>
    have := checkAddr_error.mp h
    simp; omega
  · next d h =>
    obtain ⟨rfl, h0, h1⟩ := checkAddr_ok.mp h
    simp [h0, h1, eq_comm]

/-- Reading a cell does not depend on `rs`. -/
@[simp] theorem memRead_enterActivation (s : State) (a : Int) : memRead s.enterActivation a = memRead s a := rfl

/-! ### `readParam`, `writeAddr` -/

/-- How a parameter read succeeds: the operand cell exists, and so does the data cell unless the mode is Immediate. -/
theorem readParam_ok {s : State} {k v : Int} {m : Mode} :
    readParam s k m = .ok v ↔
      ∃ o, memRead s (s.pc + k) = .ok o ∧
        ((m = .immediate ∧ v = o) ∨ (m = .position ∧ memRead s o = .ok v) ∨
          (m = .relative ∧ memRead s (o + s.rb) = .ok v)) := by
  unfold readParam
  cases h : memRead s (s.pc + k) with
  | error r => simp
  | ok o =>
    simp only [Except.ok.injEq, exists_eq_left']
    cases m <;> simp [@eq_comm _ v]

/-- A parameter read gives a value in `Int64` where memory holds nothing else. -/
theorem readParam_inInt64 {s : State} (h : ∀ e ∈ s.mem, InInt64 e.2) {k v : Int} {m : Mode}
    (hv : readParam s k m = .ok v) : InInt64 v := by
  obtain ⟨o, ho, h1⟩ := readParam_ok.mp hv
  obtain ⟨-, -, rfl⟩ := memRead_ok.mp ho
  rcases h1 with ⟨-, rfl⟩ | ⟨-, h2⟩ | ⟨-, h2⟩
  · exact Memory.read_inInt64 h _
  · obtain ⟨-, -, rfl⟩ := memRead_ok.mp h2; exact Memory.read_inInt64 h _
  · obtain ⟨-, -, rfl⟩ := memRead_ok.mp h2; exact Memory.read_inInt64 h _

/-- How a destination resolves: the operand cell exists, the mode is not Immediate, and the cell exists. -/
theorem writeAddr_ok {s : State} {k d : Int} {m : Mode} :
    writeAddr s k m = .ok d ↔
      ∃ o, memRead s (s.pc + k) = .ok o ∧
        ((m = .position ∧ d = o) ∨ (m = .relative ∧ d = o + s.rb)) ∧ 0 ≤ d ∧ d < s.memCap := by
  unfold writeAddr
  cases h : memRead s (s.pc + k) with
  | error r => simp
  | ok o =>
    simp only [Except.ok.injEq, exists_eq_left']
    cases m with
    | immediate => simp
    | position =>
      rw [checkAddr_ok]
      constructor
      · rintro ⟨rfl, h1, h2⟩; exact ⟨.inl ⟨rfl, rfl⟩, h1, h2⟩
      · rintro ⟨⟨-, rfl⟩ | ⟨h1, -⟩, h2⟩
        · exact ⟨rfl, h2⟩
        · cases h1
    | relative =>
      rw [checkAddr_ok]
      constructor
      · rintro ⟨rfl, h1, h2⟩; exact ⟨.inr ⟨rfl, rfl⟩, h1, h2⟩
      · rintro ⟨⟨h1, -⟩ | ⟨-, rfl⟩, h2⟩
        · cases h1
        · exact ⟨rfl, h2⟩

/-- A resolved destination is the address of a cell that exists. -/
theorem writeAddr_bounds {s : State} {k d : Int} {m : Mode} (h : writeAddr s k m = .ok d) :
    0 ≤ d ∧ d < s.memCap := by
  obtain ⟨o, -, -, h⟩ := writeAddr_ok.mp h
  exact h

/-- The write that follows a resolved destination never faults (20_memory.md R44). -/
theorem memWrite_of_writeAddr {s : State} {k d : Int} {m : Mode} (h : writeAddr s k m = .ok d) (q : List Int) (v : Int) :
    memWrite { s with inq := q } d v = .ok { s with inq := q, mem := s.mem.write d.toNat v } :=
  memWrite_ok.mpr ⟨(writeAddr_bounds h).1, (writeAddr_bounds h).2, rfl⟩

/-! ### `inRange` -/

theorem inRange_ok {v w : Int} : inRange v = .ok w ↔ w = v ∧ InInt64 v := by
  unfold inRange
  split
  · next h => exact ⟨fun e => ⟨(Except.ok.inj e).symm, h⟩, fun e => by rw [e.1]⟩
  · next h => simp [h]

theorem inRange_error {v : Int} {r : Raise} : inRange v = .error r ↔ ¬ InInt64 v ∧ r = ⟨.arithmeticOverflow, v⟩ := by
  unfold inRange
  split
  · next h => simp [h]
  · next h => simp only [Except.error.injEq, h, not_false_eq_true, true_and, eq_comm]

/-! ### `orFault` -/

@[simp] theorem orFault_ok {α : Type} (s : State) (a : α) (k : α → Answer) : orFault s (.ok a) k = k a := rfl

@[simp] theorem orFault_error {α : Type} (s : State) (r : Raise) (k : α → Answer) :
    orFault s (.error r) k = .next (s.faultEntry r) := rfl

/-- Everything `orFault` can do when it answers a next state. -/
theorem orFault_next {α : Type} {s t : State} {x : Except Raise α} {k : α → Answer}
    (h : orFault s x k = .next t) :
    (∃ r, x = .error r ∧ t = s.faultEntry r) ∨ (∃ a, x = .ok a ∧ k a = .next t) := by
  cases x with
  | error r => exact .inl ⟨r, rfl, by simpa using h.symm⟩
  | ok a => exact .inr ⟨a, rfl, h⟩

/-- `orFault` answers a next state where the rest does. -/
theorem orFault_answers {α : Type} {s : State} {x : Except Raise α} {k : α → Answer}
    (h : ∀ a, x = .ok a → ∃ t, k a = .next t) : ∃ t, orFault s x k = .next t := by
  cases x with
  | error r => exact ⟨_, rfl⟩
  | ok a => exact h a rfl

/-- What a fault taken is (60_exceptions.md R180). -/
theorem State.faultEntry_frame (s : State) (r : Raise) :
    (s.faultEntry r).mem = s.mem ∧ (s.faultEntry r).pc = s.pc ∧ (s.faultEntry r).rb = s.rb ∧
      (s.faultEntry r).inq = s.inq ∧ (s.faultEntry r).outlog = s.outlog ∧
      (s.faultEntry r).memCap = s.memCap := ⟨rfl, rfl, rfl, rfl, rfl, rfl⟩

end Sys2Proof.Machine
end

