-- ==== Sys2Proof/Laws/Exec.lean ====
section
/-!
SUPPORT. Everything each shared shape, and the step, can do: one inversion lemma ("if it answers next t, then …") and
one completion lemma each.
-/

namespace Sys2Proof.Machine

/-! ### The shapes -/

/-- Everything a storing instruction can do. -/
theorem storeResult_cases {f : Int → Int → Except Raise Int} {m1 m2 m3 : Mode} {s t : State}
    (h : storeResult f m1 m2 m3 s = .next t) :
    (∃ r, t = s.faultEntry r) ∨
    (∃ a b v d, readParam s 1 m1 = .ok a ∧ readParam s 2 m2 = .ok b ∧ f a b = .ok v ∧
      writeAddr s 3 m3 = .ok d ∧ t = { s with mem := s.mem.write d.toNat v }.continueAt (s.pc + 4)) := by
  obtain ⟨r, -, rfl⟩ | ⟨a, ha, h⟩ := orFault_next h
  · exact .inl ⟨r, rfl⟩
  obtain ⟨r, -, rfl⟩ | ⟨b, hb, h⟩ := orFault_next h
  · exact .inl ⟨r, rfl⟩
  obtain ⟨r, -, rfl⟩ | ⟨v, hv, h⟩ := orFault_next h
  · exact .inl ⟨r, rfl⟩
  obtain ⟨r, -, rfl⟩ | ⟨d, hd, h⟩ := orFault_next h
  · exact .inl ⟨r, rfl⟩
  rw [memWrite_of_writeAddr hd s.inq v] at h
  exact .inr ⟨a, b, v, d, ha, hb, hv, hd, (Host.Outcome.next.inj h).symm⟩

/-- When a storing instruction completes, and with what. -/
theorem storeResult_of_ok {f : Int → Int → Except Raise Int} {m1 m2 m3 : Mode} {s : State} {a b v d : Int}
    (ha : readParam s 1 m1 = .ok a) (hb : readParam s 2 m2 = .ok b) (hv : f a b = .ok v)
    (hd : writeAddr s 3 m3 = .ok d) :
    storeResult f m1 m2 m3 s = .next ({ s with mem := s.mem.write d.toNat v }.continueAt (s.pc + 4)) := by
  have hw := memWrite_of_writeAddr hd s.inq v
  simp only [storeResult, ha, hb, hv, hd, orFault_ok]
  rw [hw]; rfl

/-- Everything a jump can do. -/
theorem jumpIf_cases {p : Int → Bool} {m1 m2 : Mode} {s t : State} (h : jumpIf p m1 m2 s = .next t) :
    (∃ r, t = s.faultEntry r) ∨
    (∃ c a, readParam s 1 m1 = .ok c ∧ readParam s 2 m2 = .ok a ∧
      t = s.continueAt (if p c then a else s.pc + 3)) := by
  obtain ⟨r, -, rfl⟩ | ⟨c, hc, h⟩ := orFault_next h
  · exact .inl ⟨r, rfl⟩
  obtain ⟨r, -, rfl⟩ | ⟨a, ha, h⟩ := orFault_next h
  · exact .inl ⟨r, rfl⟩
  exact .inr ⟨c, a, hc, ha, (Host.Outcome.next.inj h).symm⟩

/-- When a jump completes, and with what. -/
theorem jumpIf_of_ok {p : Int → Bool} {m1 m2 : Mode} {s : State} {c a : Int} (hc : readParam s 1 m1 = .ok c)
    (ha : readParam s 2 m2 = .ok a) :
    jumpIf p m1 m2 s = .next (s.continueAt (if p c then a else s.pc + 3)) := by
  simp only [jumpIf, hc, ha, orFault_ok]

/-! ### The other instructions -/

/-- Everything IN can do. -/
theorem execInp_cases {m1 : Mode} {s t : State} (h : execInp m1 s = .next t) :
    (s.inq = [] ∧ t = s.suspendForInput) ∨ (∃ r, t = s.faultEntry r) ∨
    (∃ v q d, s.inq = v :: q ∧ writeAddr s 1 m1 = .ok d ∧
      t = { s with inq := q, mem := s.mem.write d.toNat v }.continueAt (s.pc + 2)) := by
  unfold execInp at h
  split at h
  · next hq => exact .inl ⟨hq, (Host.Outcome.next.inj h).symm⟩
  · next v q hq =>
    obtain ⟨r, -, rfl⟩ | ⟨d, hd, h⟩ := orFault_next h
    · exact .inr (.inl ⟨r, rfl⟩)
    rw [memWrite_of_writeAddr hd q v] at h
    exact .inr (.inr ⟨v, q, d, hq, hd, (Host.Outcome.next.inj h).symm⟩)

/-- When IN completes, and with what. -/
theorem execInp_of_ok {m1 : Mode} {s : State} {v d : Int} {q : List Int} (hq : s.inq = v :: q)
    (hd : writeAddr s 1 m1 = .ok d) :
    execInp m1 s = .next ({ s with inq := q, mem := s.mem.write d.toNat v }.continueAt (s.pc + 2)) := by
  have hw := memWrite_of_writeAddr hd q v
  simp only [execInp, hq, hd, orFault_ok]
  rw [hw]; rfl

/-- Everything OUT can do. -/
theorem execOut_cases {m1 : Mode} {s t : State} (h : execOut m1 s = .next t) :
    (∃ r, t = s.faultEntry r) ∨
    (∃ v, readParam s 1 m1 = .ok v ∧
      t = { s with outlog := s.outlog ++ [v], pc := s.pc + 2 }.returnSignal (.output v)) := by
  obtain ⟨r, -, rfl⟩ | ⟨v, hv, h⟩ := orFault_next h
  · exact .inl ⟨r, rfl⟩
  exact .inr ⟨v, hv, (Host.Outcome.next.inj h).symm⟩

/-- Everything ARB can do. -/
theorem execArb_cases {m1 : Mode} {s t : State} (h : execArb m1 s = .next t) :
    (∃ r, t = s.faultEntry r) ∨
    (∃ a, readParam s 1 m1 = .ok a ∧ InInt64 (s.rb + a) ∧
      t = { s with rb := s.rb + a }.continueAt (s.pc + 2)) := by
  obtain ⟨r, -, rfl⟩ | ⟨a, ha, h⟩ := orFault_next h
  · exact .inl ⟨r, rfl⟩
  obtain ⟨r, -, rfl⟩ | ⟨n, hn, h⟩ := orFault_next h
  · exact .inl ⟨r, rfl⟩
  obtain ⟨rfl, hr⟩ := inRange_ok.mp hn
  exact .inr ⟨a, ha, hr, (Host.Outcome.next.inj h).symm⟩

/-! ### Every instruction -/

/-- Everything an instruction can do when it answers a next state, named. The cell stored to is the one `WriteAddr`
gives (which exists: `writeAddr_bounds`), and what a storing instruction but IN stores lies in `Int64`. -/
inductive ExecEffect : Instr → State → State → Prop where
  | fault {i : Instr} {s : State} (r : Raise) : ExecEffect i s (s.faultEntry r)
  | store {i : Instr} {m1 m2 m3 : Mode} {s : State} {d v : Int} :
      i = .add m1 m2 m3 ∨ i = .mul m1 m2 m3 ∨ i = .lt m1 m2 m3 ∨ i = .eq m1 m2 m3 →
      writeAddr s 3 m3 = .ok d → InInt64 v →
      ExecEffect i s ({ s with mem := s.mem.write d.toNat v }.continueAt (s.pc + i.width))
  | input {m : Mode} {s : State} {d v : Int} {q : List Int} : s.inq = v :: q → writeAddr s 1 m = .ok d →
      ExecEffect (.inp m) s ({ s with inq := q, mem := s.mem.write d.toNat v }.continueAt (s.pc + 2))
  | suspend {m : Mode} {s : State} : s.inq = [] → ExecEffect (.inp m) s s.suspendForInput
  | output {m : Mode} {s : State} {v : Int} : readParam s 1 m = .ok v →
      ExecEffect (.out m) s ({ s with outlog := s.outlog ++ [v], pc := s.pc + 2 }.returnSignal (.output v))
  | jump {i : Instr} {m1 m2 : Mode} {s : State} {a : Int} : i = .jt m1 m2 ∨ i = .jf m1 m2 →
      readParam s 2 m2 = .ok a → ExecEffect i s (s.continueAt a)
  | noJump {i : Instr} {m1 m2 : Mode} {s : State} : i = .jt m1 m2 ∨ i = .jf m1 m2 →
      ExecEffect i s (s.continueAt (s.pc + 3))
  | adjust {m : Mode} {s : State} {a : Int} : readParam s 1 m = .ok a → InInt64 (s.rb + a) →
      ExecEffect (.arb m) s ({ s with rb := s.rb + a }.continueAt (s.pc + 2))
  | halt {s : State} : ExecEffect .hlt s s.halt

theorem storeResult_effect {f : Int → Int → Except Raise Int} {m1 m2 m3 : Mode} {i : Instr} {s t : State}
    (hf : ∀ a b v, f a b = .ok v → InInt64 v)
    (hi : i = .add m1 m2 m3 ∨ i = .mul m1 m2 m3 ∨ i = .lt m1 m2 m3 ∨ i = .eq m1 m2 m3) (h : storeResult f m1 m2 m3 s = .next t) : ExecEffect i s t := by
  obtain ⟨r, rfl⟩ | ⟨a, b, v, d, -, -, hv, hd, rfl⟩ := storeResult_cases h
  · exact .fault r
  · have := ExecEffect.store (v := v) hi hd (hf a b v hv)
    rcases hi with rfl | rfl | rfl | rfl <;> exact this

theorem jumpIf_effect {p : Int → Bool} {m1 m2 : Mode} {i : Instr} {s t : State} (hi : i = .jt m1 m2 ∨ i = .jf m1 m2)
    (h : jumpIf p m1 m2 s = .next t) : ExecEffect i s t := by
  obtain ⟨r, rfl⟩ | ⟨c, a, -, ha, rfl⟩ := jumpIf_cases h
  · exact .fault r
  · split
    · exact .jump hi ha
    · exact .noJump hi

theorem inRange_inInt64 {v w : Int} (h : inRange v = .ok w) : InInt64 w := (inRange_ok.mp h).1 ▸ (inRange_ok.mp h).2

/-- Everything any instruction can do. -/
theorem exec_effect {i : Instr} {s t : State} (h : exec i s = .next t) : ExecEffect i s t := by
  cases i with
  | add => exact storeResult_effect (fun _ _ _ hv => inRange_inInt64 hv) (.inl rfl) h
  | mul => exact storeResult_effect (fun _ _ _ hv => inRange_inInt64 hv) (.inr (.inl rfl)) h
  | lt =>
    refine storeResult_effect (fun _ _ _ hv => ?_) (.inr (.inr (.inl rfl))) h
    cases hv; split <;> decide
  | eq =>
    refine storeResult_effect (fun _ _ _ hv => ?_) (.inr (.inr (.inr rfl))) h
    cases hv; split <;> decide
  | jt => exact jumpIf_effect (.inl rfl) h
  | jf => exact jumpIf_effect (.inr rfl) h
  | inp =>
    obtain ⟨hq, rfl⟩ | ⟨r, rfl⟩ | ⟨v, q, d, hq, hd, rfl⟩ := execInp_cases h
    · exact .suspend hq
    · exact .fault r
    · exact .input hq hd
  | out =>
    obtain ⟨r, rfl⟩ | ⟨v, hv, rfl⟩ := execOut_cases h
    · exact .fault r
    · exact .output hv
  | arb =>
    obtain ⟨r, rfl⟩ | ⟨a, ha, hr, rfl⟩ := execArb_cases h
    · exact .fault r
    · exact .adjust ha hr
  | hlt => cases h; exact .halt

/-! ### Fetch and step -/

/-- Operands do not depend on `rs`. -/
@[simp] theorem readParam_enterActivation (s : State) (k : Int) (m : Mode) :
    readParam s.enterActivation k m = readParam s k m := rfl

@[simp] theorem writeAddr_enterActivation (s : State) (k : Int) (m : Mode) :
    writeAddr s.enterActivation k m = writeAddr s k m := rfl

/-- Fetching does not depend on `rs`. -/
@[simp] theorem fetchDecode_enterActivation (s : State) : fetchDecode s.enterActivation = fetchDecode s := rfl

/-- Which instruction is fetched: the cell at `pc` exists and its word decodes to it. -/
theorem fetchDecode_ok {s : State} {i : Instr} :
    fetchDecode s = .ok i ↔ 0 ≤ s.pc ∧ s.pc < s.memCap ∧ decode (s.mem.read s.pc.toNat) = .ok i := by
  unfold fetchDecode
  cases h : memRead s s.pc with
  | error r =>
    have := checkAddr_error.mp (memRead_error.mp h)
    simp; omega
  | ok raw =>
    obtain ⟨h0, h1, rfl⟩ := memRead_ok.mp h
    cases hd : decode (s.mem.read s.pc.toNat) <;> simp [h0, h1, hd]

/-- Everything a step can do. -/
theorem step_cases {s t : State} (h : step s = .next t) :
    (s.rs = .halted ∧ t = s.returnSignal .halt) ∨
    (s.rs = .faulted ∧ t = s.returnSignal (.fault s.fc s.fi)) ∨
    ((s.rs = .running ∨ s.rs = .awaitingInput) ∧
      ((∃ r, fetchDecode s = .error r ∧ t = s.enterActivation.faultEntry r) ∨
       (∃ i, fetchDecode s = .ok i ∧ exec i s.enterActivation = .next t))) := by
  unfold step enginePass at h
  cases hs : s.rs <;> rw [hs] at h <;> simp only [fetchDecode_enterActivation] at h
  · obtain ⟨r, hr, rfl⟩ | ⟨i, hi, h⟩ := orFault_next h
    · exact .inr (.inr ⟨.inl rfl, .inl ⟨r, hr, rfl⟩⟩)
    · exact .inr (.inr ⟨.inl rfl, .inr ⟨i, hi, h⟩⟩)
  · obtain ⟨r, hr, rfl⟩ | ⟨i, hi, h⟩ := orFault_next h
    · exact .inr (.inr ⟨.inr rfl, .inl ⟨r, hr, rfl⟩⟩)
    · exact .inr (.inr ⟨.inr rfl, .inr ⟨i, hi, h⟩⟩)
  · exact .inl ⟨rfl, (Host.Outcome.next.inj h).symm⟩
  · exact .inr (.inl ⟨rfl, (Host.Outcome.next.inj h).symm⟩)

end Sys2Proof.Machine
end

