-- ==== Sys2Proof/Laws/PerInstr.lean ====
section
/-!
SUPPORT. The per-instruction family `WordShape`: the shape of an instruction's word and cells (30_encoding.md R60,
R61, R67).
-/

namespace Sys2Proof.Laws

/-- The encoded word has five decimal digits, the instruction's opcode is its two low ones, and the instruction is 1
to 4 cells long. -/
def WordShape.Statement (i : Instr) : Prop :=
  encode i < 100000 ∧ encode i % 100 = i.opcode ∧ 1 ≤ i.width ∧ i.width ≤ 4

theorem WordShape.add (m1 m2 m3 : Mode) : WordShape.Statement (.add m1 m2 m3) := by
  cases m1 <;> cases m2 <;> cases m3 <;> simp [Statement, encode, wordOf, Mode.toDigit, Instr.opcode, Instr.width]

theorem WordShape.mul (m1 m2 m3 : Mode) : WordShape.Statement (.mul m1 m2 m3) := by
  cases m1 <;> cases m2 <;> cases m3 <;> simp [Statement, encode, wordOf, Mode.toDigit, Instr.opcode, Instr.width]

theorem WordShape.inp (m1 : Mode) : WordShape.Statement (.inp m1) := by
  cases m1 <;> simp [Statement, encode, wordOf, Mode.toDigit, Instr.opcode, Instr.width]

theorem WordShape.out (m1 : Mode) : WordShape.Statement (.out m1) := by
  cases m1 <;> simp [Statement, encode, wordOf, Mode.toDigit, Instr.opcode, Instr.width]

theorem WordShape.jt (m1 m2 : Mode) : WordShape.Statement (.jt m1 m2) := by
  cases m1 <;> cases m2 <;> simp [Statement, encode, wordOf, Mode.toDigit, Instr.opcode, Instr.width]

theorem WordShape.jf (m1 m2 : Mode) : WordShape.Statement (.jf m1 m2) := by
  cases m1 <;> cases m2 <;> simp [Statement, encode, wordOf, Mode.toDigit, Instr.opcode, Instr.width]

theorem WordShape.lt (m1 m2 m3 : Mode) : WordShape.Statement (.lt m1 m2 m3) := by
  cases m1 <;> cases m2 <;> cases m3 <;> simp [Statement, encode, wordOf, Mode.toDigit, Instr.opcode, Instr.width]

theorem WordShape.eq (m1 m2 m3 : Mode) : WordShape.Statement (.eq m1 m2 m3) := by
  cases m1 <;> cases m2 <;> cases m3 <;> simp [Statement, encode, wordOf, Mode.toDigit, Instr.opcode, Instr.width]

theorem WordShape.arb (m1 : Mode) : WordShape.Statement (.arb m1) := by
  cases m1 <;> simp [Statement, encode, wordOf, Mode.toDigit, Instr.opcode, Instr.width]

theorem WordShape.hlt : WordShape.Statement .hlt := by
  simp [Statement, encode, wordOf, Instr.opcode, Instr.width]

end Sys2Proof.Laws
end

