-- ==== Sys2Proof/Tests/Slice0.lean ====
section
/-!
SUPPORT. Tests: ill-formed instructions refused, words written out from the spec's patterns, one step of each
instruction (expected results from spec/95_test_vectors.md, named in each test, or worked by hand from the rule
named), and for every statement with hypotheses a state that meets them.
-/

namespace Sys2Proof.Tests

open Sys2Proof Sys2Proof.Machine

/-- A small instance of capacity 16 with these cells from address 0 on. -/
def mem16 (cells : List Int) : State := { State.reset with mem := Memory.writeAll [] 0 cells, memCap := 16 }

/-- The same with these values in the input queue. -/
def withInputs (s : State) (q : List Int) : State := { s with inq := q }

/-- The step answers a next state of which `p` holds. -/
def stepTo (s : State) (p : State → Bool) : Bool :=
  match step s with
  | .next t => p t
  | .fault _ => false
  | .refused _ => false

/-! ### WellFormed: an ill-formed term for each check -/

theorem test_wf_add : (Instr.add .position .position .immediate).wf = false := by decide
theorem test_wf_mul : (Instr.mul .position .position .immediate).wf = false := by decide
theorem test_wf_inp : (Instr.inp .immediate).wf = false := by decide
theorem test_wf_lt : (Instr.lt .position .position .immediate).wf = false := by decide
theorem test_wf_eq : (Instr.eq .position .position .immediate).wf = false := by decide

/-! ### Decoding: words by the pattern `CBAoo`, most significant digit first (R60, R67; the table of 30_encoding.md
section 6) -/

theorem test_decode_add : decode 21101 = .ok (.add .immediate .immediate .relative) := by decide
theorem test_decode_mul : decode 20102 = .ok (.mul .immediate .position .relative) := by decide
theorem test_decode_inp : decode 203 = .ok (.inp .relative) := by decide
theorem test_decode_out : decode 10204 = .ok (.out .relative) := by decide
theorem test_decode_jt : decode 1205 = .ok (.jt .relative .immediate) := by decide
theorem test_decode_jf : decode 12106 = .ok (.jf .immediate .relative) := by decide
theorem test_decode_lt : decode 1207 = .ok (.lt .relative .immediate .position) := by decide
theorem test_decode_eq : decode 22108 = .ok (.eq .immediate .relative .relative) := by decide
theorem test_decode_arb : decode 209 = .ok (.arb .relative) := by decide
theorem test_decode_hlt : decode 1099 = .ok .hlt := by decide
theorem test_decode_high_digit : decode 100001 = .ok (.add .position .position .position) := by decide
theorem test_decode_unused_digit : decode 3004 = .error .invalidMode := by decide
theorem test_decode_mode_wins : decode 3050 = .error .invalidMode := by decide
theorem test_decode_opcode_wins : decode 100 = .error .unknownOpcode := by decide
theorem test_decode_negative : decode (-99) = .error .unknownOpcode := by decide
theorem test_decode_write_target : decode 103 = .error .invalidWriteTarget := by decide

/-- Words of the assembler examples of R74, encoded. -/
theorem test_encode : encode (.mul .position .immediate .position) = 1002 ∧ encode (.out .relative) = 204 := by decide

theorem test_table_word : decodeTableWord 8 4 = some (.out .position) := by decide
theorem test_table_word_negative : decodeTableWord 64 18446744073709551615 = none := by decide
theorem test_fetch_word : stepTo (State.reset.withFetchWord 8 4) (fun t => t.outlog = [4] ∧ t.pc = 2) = true := by decide

/-! ### One step of each instruction -/

/-- S1. -/
theorem test_add_own_word : stepTo (mem16 [1, 0, 0, 0, 99])
    (fun t => t.mem = [(0, 2), (4, 99)] ∧ t.pc = 4 ∧ t.act = .looping) = true := by decide
/-- A3. -/
theorem test_add_overflow : stepTo (mem16 [1101, 9223372036854775807, 1, 0, 99])
    (fun t => t.fc = 7 ∧ t.fi = 9223372036854775808 ∧ t.pc = 0 ∧ t.mem.read 0 = 1101) = true := by decide
/-- M2. -/
theorem test_mul_signs : stepTo (mem16 [1102, -3, 4, 0, 99]) (fun t => t.mem.read 0 = -12 ∧ t.pc = 4) = true := by decide
/-- M3. -/
theorem test_mul_overflow : stepTo (mem16 [1102, -9223372036854775808, -1, 0, 99])
    (fun t => t.rs = .faulted ∧ t.fi = 9223372036854775808) = true := by decide
/-- I4, the first IN. -/
theorem test_inp_front : stepTo (withInputs (mem16 [3, 10, 3, 11, 99]) [7, 8])
    (fun t => t.mem.read 10 = 7 ∧ t.inq = [8] ∧ t.pc = 2) = true := by decide
/-- I5b: an empty queue suspends although the destination does not exist. -/
theorem test_inp_suspends : stepTo (mem16 [3, -1, 99])
    (fun t => t.rs = .awaitingInput ∧ t.act = .returned .needInput ∧ t.pc = 0) = true := by decide
/-- O2. -/
theorem test_out : stepTo (mem16 [4, 3, 99, 77])
    (fun t => t.outlog = [77] ∧ t.act = .returned (.output 77) ∧ t.pc = 2 ∧ t.rs = .running) = true := by decide
/-- J3. -/
theorem test_jt_taken : stepTo (mem16 [5, 7, 8, 99, 104, 3, 99, -2, 4]) (fun t => t.pc = 4) = true := by decide
/-- J2. -/
theorem test_jt_not_taken : stepTo (mem16 [1105, 0, 4, 99, 104, 7, 99]) (fun t => t.pc = 3) = true := by decide
/-- J4. -/
theorem test_jf_taken : stepTo (mem16 [1106, 0, 4, 99, 104, 9, 99]) (fun t => t.pc = 4) = true := by decide
/-- J8: parameter 2 is read although the jump is not taken. -/
theorem test_jf_reads_target : stepTo (mem16 [6, 0, -1, 99]) (fun t => t.fc = 4 ∧ t.fi = -1 ∧ t.pc = 0) = true := by decide
/-- L7. -/
theorem test_lt_negative : stepTo (mem16 [7, 5, 6, 7, 99, -4, -3, 9]) (fun t => t.mem.read 7 = 1) = true := by decide
/-- L3. -/
theorem test_lt_equal : stepTo (mem16 [1107, 5, 5, 5, 99, -1]) (fun t => t.mem.read 5 = 0 ∧ t.pc = 4) = true := by decide
/-- E2. -/
theorem test_eq_different : stepTo (mem16 [1108, 5, -5, 5, 99, -1]) (fun t => t.mem.read 5 = 0) = true := by decide
/-- E3. -/
theorem test_eq_same : stepTo (mem16 [8, 5, 6, 7, 99, 4, 4, -1]) (fun t => t.mem.read 7 = 1) = true := by decide
/-- R3, the second ARB: a Relative parameter is read with the old `rb`. -/
theorem test_arb_old_base : stepTo { mem16 [109, 7, 209, 0, 204, 0, 99, 2, 0, 55] with pc := 2, rb := 7 }
    (fun t => t.rb = 9 ∧ t.pc = 4) = true := by decide
/-- R4, the second ARB. -/
theorem test_arb_overflow : stepTo { mem16 [109, 9223372036854775807, 109, 1, 99] with pc := 2, rb := 9223372036854775807 }
    (fun t => t.fc = 7 ∧ t.fi = 9223372036854775808 ∧ t.rb = 9223372036854775807) = true := by decide
/-- H5: HLT in the last cell of memory. -/
theorem test_hlt_last_cell : stepTo { mem16 [99] with memCap := 1 }
    (fun t => t.rs = .halted ∧ t.act = .returned .halt ∧ t.pc = 0) = true := by decide
/-- F2: the empty program. -/
theorem test_reset_step : stepTo State.reset (fun t => t.fc = 1 ∧ t.fi = 0 ∧ t.rs = .faulted ∧ t.pc = 0) = true := by decide
/-- I3: the decode stage precedes the queue test. -/
theorem test_decode_before_queue : stepTo (mem16 [103, 0, 99]) (fun t => t.fc = 3 ∧ t.fi = 103) = true := by decide
/-- F7: the operand cell `pc + 3` does not exist. -/
theorem test_missing_operand : stepTo { mem16 [1101, 1, 1] with memCap := 3 } (fun t => t.fc = 5 ∧ t.fi = 3) = true := by decide
/-- The P3 trace of section 3: a Relative destination, `ADD [42], 0, [rb+0]` scaled to 16 cells. -/
theorem test_relative_destination : stepTo { mem16 [21001, 4, 0, 0, 120] with rb := 15 }
    (fun t => t.mem.read 15 = 120) = true := by decide

/-! ### The canonical form of memory -/

theorem test_write_keeps_form : Memory.write (Memory.write [(2, 5)] 1 7) 2 0 = [(1, 7)] := by decide

/-! ### Witnesses: a state and operands that meet the hypotheses of each statement -/

/-- LengthFromOpcodeAlone: a decoded word of each length. -/
theorem witness_decodes : decode 1099 = .ok .hlt ∧ decode 100003 = .ok (.inp .position) ∧
    decode 2206 = .ok (.jf .relative .relative) ∧ decode 22208 = .ok (.eq .relative .relative .relative) := by decide

/-- DecodeOfEncodeIsIdentity, at the largest mode digits and with digits above `10^5`. -/
theorem witness_wf : (Instr.eq .relative .relative .relative).wf = true ∧ decode (22208 + 100000 * 7) =
    .ok (.eq .relative .relative .relative) := by decide

/-- The four clauses of MemWriteReplacesOneCell, at the edges of memory. -/
theorem witness_memWrite : (-1 : Int) < 0 ∧ (16 : Int) ≤ (mem16 []).memCap + 0 ∧ (0 : Int) ≤ 15 ∧
    (15 : Int) < (mem16 []).memCap ∧ writeAddr (mem16 [1, 0, 0, 15]) 3 .position = .ok 15 := by decide

/-- MemReadGivesLastWrite, StoreIsSeenByNextFetch: a write that succeeds. -/
theorem witness_memWrite_ok : memWrite (mem16 []) 15 3 = .ok { mem16 [] with mem := [(15, 3)] } := by decide

/-- StepRunsDecodedInstruction, in the last cell, from both run states. -/
theorem witness_atInstr : (mem16 []).rs = .running ∧
    { mem16 [] with mem := [(15, 99)], pc := 15, rs := .awaitingInput }.AtInstr .hlt := by
  refine ⟨rfl, ?_, ?_, ?_⟩ <;> decide

/-- TerminalStepOnlyAnswers, TerminalActivationRepeatsSignal: both clauses. -/
theorem witness_terminal : { mem16 [99] with rs := .halted }.rs = RunState.halted ∧
    ((mem16 []).faultEntry ⟨.unknownOpcode, 0⟩).rs = .faulted := by decide

/-- FetchOutsideMemoryFaults: both clauses at their boundary. -/
theorem witness_fetch_outside : (mem16 []).rs = .running ∧ { mem16 [] with pc := -1 }.pc < 0 ∧
    (({ mem16 [] with pc := 16 } : State).memCap : Int) ≤ { mem16 [] with pc := 16 }.pc := by decide

/-- IllegalWordFaults: a word of each fault. -/
theorem witness_illegal_word : (mem16 [3050]).rs = .running ∧ (0 : Int) ≤ (mem16 [3050]).pc ∧
    (mem16 [3050]).pc < (mem16 [3050]).memCap ∧ decode ((mem16 [3050]).mem.read 0) = .error .invalidMode ∧
    decode ((mem16 []).mem.read 0) = .error .unknownOpcode ∧
    decode ((mem16 [103]).mem.read 0) = .error .invalidWriteTarget := by decide

/-- AddStoresExactSum, at the top of `Int64` and of memory. -/
theorem witness_add : readParam (mem16 [1101, 9223372036854775806, 1, 15]) 1 .immediate = .ok 9223372036854775806 ∧
    readParam (mem16 [1101, 9223372036854775806, 1, 15]) 2 .immediate = .ok 1 ∧
    InInt64 (9223372036854775806 + 1) ∧
    writeAddr (mem16 [1101, 9223372036854775806, 1, 15]) 3 .position = .ok 15 := by decide

/-- MulStoresExactProduct, at the bottom of `Int64` (M3b). -/
theorem witness_mul : readParam (mem16 [1102, -9223372036854775808, 1, 0]) 1 .immediate = .ok (-9223372036854775808) ∧
    readParam (mem16 [1102, -9223372036854775808, 1, 0]) 2 .immediate = .ok 1 ∧
    InInt64 (-9223372036854775808 * 1) ∧
    writeAddr (mem16 [1102, -9223372036854775808, 1, 0]) 3 .position = .ok 0 := by decide

/-- LtStoresOneOrZero and the completing clause of EqStoresOneOrZero. -/
theorem witness_compare : readParam (mem16 [7, 5, 6, 7, 99, -4, -3, 9]) 1 .position = .ok (-4) ∧
    readParam (mem16 [7, 5, 6, 7, 99, -4, -3, 9]) 2 .position = .ok (-3) ∧
    writeAddr (mem16 [7, 5, 6, 7, 99, -4, -3, 9]) 3 .position = .ok 7 := by decide

/-- The fault clauses of EqStoresOneOrZero, StoringInstructionsFaultInOrder and JfJumpsWhenZero: parameter 1, parameter
2, destination. -/
theorem witness_storing_faults : readParam (mem16 [8, -1, 0, 0]) 1 .position = .error ⟨.addressUnderflow, -1⟩ ∧
    readParam (mem16 [8, 0, 16, 0]) 1 .position = .ok 8 ∧
    readParam (mem16 [8, 0, 16, 0]) 2 .position = .error ⟨.capacityExceeded, 16⟩ ∧
    readParam (mem16 [8, 0, 0, 16]) 1 .position = .ok 8 ∧ readParam (mem16 [8, 0, 0, 16]) 2 .position = .ok 8 ∧
    InInt64 (8 + 8) ∧ InInt64 (8 * 8) ∧
    writeAddr (mem16 [8, 0, 0, 16]) 3 .position = .error ⟨.capacityExceeded, 16⟩ := by decide

/-- InStoresFrontOfQueue, PushAppendsBetweenActivations (first clause), LaterInputsWaitBehind. -/
theorem witness_input : (withInputs (mem16 [3, 15]) [7, 8]).inq = 7 :: [8] ∧
    writeAddr (withInputs (mem16 [3, 15]) [7, 8]) 1 .position = .ok 15 ∧ InInt64 9223372036854775807 ∧
    (withInputs (mem16 [3, 15]) [7, 8]).act ≠ .looping := by decide

/-- InSuspendsOnEmptyQueue. -/
theorem witness_empty_queue : (mem16 [3, 15]).inq = [] := by decide

/-- OutAppendsAndReturns, both clauses; NonStoringInstructionsFrame. -/
theorem witness_out : readParam (mem16 [4, 15]) 1 .position = .ok 0 ∧
    readParam (mem16 [4, 16]) 1 .position = .error ⟨.capacityExceeded, 16⟩ ∧
    storesCell (.out .position) = false := by decide

/-- JtJumpsWhenNotZero and the completing clause of JfJumpsWhenZero, with the condition zero and not. -/
theorem witness_jump : readParam (mem16 [1105, -1, -3]) 1 .immediate = .ok (-1) ∧
    readParam (mem16 [1105, -1, -3]) 2 .immediate = .ok (-3) ∧
    readParam (mem16 [1106, 0, 16]) 1 .immediate = .ok 0 ∧
    readParam (mem16 [1106, 0, 16]) 2 .immediate = .ok 16 := by decide

/-- The unused digits of OutAppendsAndReturns and JfJumpsWhenZero at their largest. -/
theorem witness_unused_digits : decode (wordOf 1 2 2 4 : Nat) = .ok (.out .immediate) ∧
    decode (wordOf 1 2 2 6 : Nat) = .ok (.jf .immediate .relative) := by decide

/-- ArbAddsToRelativeBase, at the top of `Int64`. -/
theorem witness_arb : readParam (mem16 [109, 9223372036854775807]) 1 .immediate = .ok 9223372036854775807 ∧
    InInt64 ((mem16 [109, 9223372036854775807]).rb + 9223372036854775807) := by decide

/-- ArbCompletesInEveryMode, each mode in one state: the operand cell is the last of memory, the cells addressed are the
last (Position) and the first (Relative), whose sum is the least value of `Int64`. -/
theorem witness_arb_modes :
    let s : State := { mem16 [] with mem := [(0, -9223372036854775793), (15, 15)], pc := 14, rb := -15 }
    0 ≤ s.pc + 1 ∧ s.pc + 1 < s.memCap ∧ s.mem.read (s.pc + 1).toNat = 15 ∧ InInt64 (s.rb + 15) ∧
      (0 : Int) ≤ 15 ∧ 15 < s.memCap ∧ InInt64 (s.rb + s.mem.read 15) ∧
      0 ≤ 15 + s.rb ∧ 15 + s.rb < s.memCap ∧ InInt64 (s.rb + s.mem.read (15 + s.rb).toNat) := by decide

/-- OverflowFaults, each clause one past the range. -/
theorem witness_overflow : readParam (mem16 [1101, 9223372036854775807, 1]) 1 .immediate = .ok 9223372036854775807 ∧
    readParam (mem16 [1101, 9223372036854775807, 1]) 2 .immediate = .ok 1 ∧
    ¬ InInt64 (9223372036854775807 + 1) ∧
    readParam (mem16 [1102, 4294967296, 2147483648]) 1 .immediate = .ok 4294967296 ∧
    readParam (mem16 [1102, 4294967296, 2147483648]) 2 .immediate = .ok 2147483648 ∧
    ¬ InInt64 (4294967296 * 2147483648) ∧
    readParam (mem16 [109, 1]) 1 .immediate = .ok 1 ∧
    ¬ InInt64 ({ mem16 [109, 1] with rb := 9223372036854775807 }.rb + 1) := by decide

/-- InArbJtFaults, each clause. -/
theorem witness_other_faults : (withInputs (mem16 [3, 16]) [1]).inq ≠ [] ∧
    writeAddr (withInputs (mem16 [3, 16]) [1]) 1 .position = .error ⟨.capacityExceeded, 16⟩ ∧
    readParam (mem16 [9, -1]) 1 .position = .error ⟨.addressUnderflow, -1⟩ ∧
    readParam (mem16 [5, 15, -1]) 1 .position = .ok 0 ∧
    readParam (mem16 [5, 15, -1]) 2 .position = .error ⟨.addressUnderflow, -1⟩ := by decide

/-- The frames: each storing instruction and IN answer a next state, with a destination and without one. -/
theorem witness_frames : (∃ t, exec (.lt .position .position .position) (mem16 [7, 0, 0, 15]) = .next t) ∧
    writeAddr (mem16 [7, 0, 0, 15]) 3 .position = .ok 15 ∧
    (∃ t, exec (.lt .position .position .position) (mem16 [7, 0, 0, 16]) = .next t) ∧
    writeAddr (mem16 [7, 0, 0, 16]) 3 .position = .error ⟨.capacityExceeded, 16⟩ ∧
    (∃ t, exec (.inp .position) (mem16 [3, 15]) = .next t) ∧ (mem16 [3, 15]).inq = [] ∧
    writeAddr (mem16 [3, 15]) 1 .position = .ok 15 ∧
    writeAddr (mem16 [3, 16]) 1 .position = .error ⟨.capacityExceeded, 16⟩ :=
  ⟨⟨_, rfl⟩, by decide, ⟨_, rfl⟩, by decide, ⟨_, rfl⟩, by decide, by decide, by decide⟩

/-- OnlyArbWritesRelativeBase: an ARB that changes `rb`, and an instruction that does not read it. -/
theorem witness_relative_base : (∃ t, exec (.arb .immediate) (mem16 [109, 5]) = .next t ∧ t.rb ≠ (mem16 [109, 5]).rb) ∧
    readsRelativeBase (.out .position) = false ∧ ∃ t, exec (.out .position) (mem16 [4, 15]) = .next t :=
  ⟨⟨_, rfl, by decide⟩, by decide, ⟨_, rfl⟩⟩

/-- The whole-machine statements: a step that answers a next state (OnlyJumpsLeaveTheProgramOrder,
OutputLogGrowsByItsSignal, OnlyInTakesFromTheQueue, StepChangesAtMostOneCell, OutputLogIsNeverRead,
ActivationEndsOnlyAtSuspensionPoints). -/
theorem witness_step : (∃ t, step (mem16 [104, 7]) = .next t) ∧ (mem16 [104, 7]).rs = .running := ⟨⟨_, rfl⟩, rfl⟩

/-- StepChangesAtMostOneCell, each clause: a storing instruction and IN with a destination in the last cell and one past
it, IN on an empty queue, an instruction that stores nothing, a terminal instance, a step that faults. -/
theorem witness_one_cell :
    (mem16 [1107, 1, 2, 15]).AtInstr (.lt .immediate .immediate .position) ∧
    writeAddr (mem16 [1107, 1, 2, 15]) 3 .position = .ok 15 ∧
    writeAddr (mem16 [1107, 1, 2, 16]) 3 .position = .error ⟨.capacityExceeded, 16⟩ ∧
    (withInputs (mem16 [3, 15]) [7]).AtInstr (.inp .position) ∧
    writeAddr (withInputs (mem16 [3, 15]) [7]) 1 .position = .ok 15 ∧
    writeAddr (withInputs (mem16 [3, 16]) [7]) 1 .position = .error ⟨.capacityExceeded, 16⟩ ∧
    (mem16 [3, 15]).inq = [] ∧ decode ((mem16 [104, 7]).mem.read 0) = .ok (.out .immediate) ∧
    storesCell (.out .immediate) = false ∧ { mem16 [99] with rs := .halted }.rs = RunState.halted ∧
    (∃ t, step (mem16 [1107, 1, 2, 16]) = .next t ∧ t.rs = .faulted) ∧
    (∃ t, step (mem16 [1107, 1, 2, 15]) = .next t ∧ t.mem.read 15 = 1) := by
  refine ⟨⟨?_, ?_, ?_⟩, ?_, ?_, ⟨?_, ?_, ?_⟩, ?_, ?_, ?_, ?_, ?_, ?_, ⟨_, rfl, ?_⟩, _, rfl, ?_⟩ <;> decide

/-- FaultsArePrecise: a step from Running to Faulted. -/
theorem witness_precise_fault : (mem16 [0]).rs ≠ .faulted ∧
    ∃ t, step (mem16 [0]) = .next t ∧ t.rs = .faulted := ⟨by decide, _, rfl, by decide⟩

/-- LaterInputsWaitBehind: a step with a value in the queue. -/
theorem witness_later_inputs : (withInputs (mem16 [3, 15]) [7]).inq ≠ [] ∧
    ∃ t, step (withInputs (mem16 [3, 15]) [7]) = .next t := ⟨by decide, _, rfl⟩

/-- An instance suspended at an IN, as a host brings it about: `3,15` with no input, activated once. -/
def suspended : State := { mem16 [3, 15] with rs := .awaitingInput, act := .returned .needInput }

/-- The premises of SuspendedInputRetriesUnchanged and PushThenResumeCompletesInput, the invariant included. -/
theorem witness_suspended : suspended.Inv ∧ suspended.rs = .awaitingInput ∧ suspended.inq = [] ∧
    writeAddr suspended 1 .position = .ok 15 := by
  refine ⟨?_, rfl, rfl, by decide⟩
  exact { cap := by decide, memWf := by decide, memWithin := by decide, memRange := by decide, pcRange := by decide
          rbRange := by decide, inqRange := by decide, outlogRange := by decide, fcZero := by decide
          fcCode := .inl rfl, fiZero := by decide
          atInput := fun _ => ⟨.position, ⟨by decide, by decide, by decide⟩, by decide⟩
          atHalt := fun h => absurd h (by decide), signal := rfl }

/-- InvariantKeptByEveryStep: a sound instance and its step, the suspended IN again. -/
theorem witness_sound_step : suspended.Inv ∧ step suspended = .next suspended := ⟨witness_suspended.1, rfl⟩

/-- ActivationReturnsAgreeingSignal: a sound instance and an activation that returns. -/
theorem witness_activation : suspended.Inv ∧ RunStep suspended .needInput suspended :=
  ⟨witness_suspended.1, .stop witness_sound_step.2 rfl⟩

/-- ActivationIsDeterministic: an activation that outputs, from Running, with another log, run state and status. -/
theorem witness_deterministic : (mem16 [104, 7]).rs = .running ∧
    RunStep (mem16 [104, 7]) (.output 7) { mem16 [104, 7] with pc := 2, outlog := [7], act := .returned (.output 7) } ∧
    RunStep { mem16 [104, 7] with outlog := [1], rs := .awaitingInput, act := .returned .needInput } (.output 7)
      { mem16 [104, 7] with pc := 2, outlog := [1, 7], act := .returned (.output 7) } :=
  ⟨rfl, .stop rfl rfl, .stop rfl rfl⟩

/-- InvariantKeptByPush: a sound instance that takes a push, of the largest value. -/
theorem witness_push : suspended.Inv ∧ ∃ t, pushInput 9223372036854775807 suspended = .next t :=
  ⟨witness_suspended.1, _, rfl⟩

/-- InvariantHoldsAfterConstruction, ConstructionGivesResetState: the smallest capacity, filled. -/
theorem witness_construct : (∃ t, construct 1 [99] [] = .next t) ∧ AllInt64 [99] ∧ AllInt64 [] ∧
    [(99 : Int)].length ≤ 1 := ⟨⟨_, rfl⟩, by decide, by decide, by decide⟩

/-- EveryReachableStateIsSound: a reachable state. -/
theorem witness_reachable : ∃ s, Reachable s := ⟨_, .construct (cap := 1) (program := [99]) (inputs := []) rfl⟩

/-- ConstructionRefusesBadArguments: each ground, one past its bound. -/
theorem witness_bad_construction : (0 < 1) ∧ 9223372036854775804 < 9223372036854775805 ∧
    1 < [(1 : Int), 2].length ∧ ¬ AllInt64 [9223372036854775808] ∧ ¬ AllInt64 [-9223372036854775809] := by decide

/-- PushAppendsBetweenActivations, the second clause. -/
theorem witness_inside_activation : ({ mem16 [] with act := .looping } : State).act = .looping := rfl

/-- SelfJumpNeverReturns, in the last three cells of memory. -/
theorem witness_self_jump : (mem16 []).rs = .running ∧
    ({ mem16 [] with mem := [(13, 1105), (14, 1), (15, 13)], pc := 13 } : State).AtInstr
      (.jt .immediate .immediate) ∧ (13 + 2 : Int) < (mem16 []).memCap ∧
    Memory.read [(13, 1105), (14, 1), (15, 13)] 14 ≠ 0 ∧ Memory.read [(13, 1105), (14, 1), (15, 13)] 15 = 13 := by
  refine ⟨rfl, ⟨?_, ?_, ?_⟩, ?_, ?_, ?_⟩ <;> decide

end Sys2Proof.Tests
end

section
/-!
SUPPORT. The relative base (10_state.md R15): it is written by ARB only, and replacing it before an instruction that
does not read it is the same as replacing it after.
-/

namespace Sys2Proof.Machine

/-! ### Replacing `rb` in a state and in an answer -/

/-- `s` with `r` in `rb`. -/
def State.setRb (s : State) (r : Int) : State := { s with rb := r }

/-- `rb` replaced in the next state, where there is one. -/
def setRbInAnswer (r : Int) : Answer → Answer
  | .next t => .next (t.setRb r)
  | .fault e => .fault e
  | .refused e => .refused e

@[simp] theorem State.setRb_pc (s : State) (r : Int) : (s.setRb r).pc = s.pc := rfl
@[simp] theorem State.setRb_inq (s : State) (r : Int) : (s.setRb r).inq = s.inq := rfl

@[simp] theorem setRbInAnswer_next (r : Int) (t : State) : setRbInAnswer r (.next t) = .next (t.setRb r) := rfl

/-! ### What does not read `rb` -/

@[simp] theorem checkAddr_setRb (s : State) (r a : Int) : checkAddr (s.setRb r) a = checkAddr s a := rfl

@[simp] theorem memRead_setRb (s : State) (r a : Int) : memRead (s.setRb r) a = memRead s a := rfl

/-- Only a Relative parameter reads `rb` (40_engine.md R86). -/
theorem readParam_setRb {m : Mode} (hm : m ≠ .relative) (s : State) (r k : Int) :
    readParam (s.setRb r) k m = readParam s k m := by
  cases m with
  | position => rfl
  | immediate => rfl
  | relative => exact absurd rfl hm

/-- Only a Relative destination reads `rb` (40_engine.md R87). -/
theorem writeAddr_setRb {m : Mode} (hm : m ≠ .relative) (s : State) (r k : Int) :
    writeAddr (s.setRb r) k m = writeAddr s k m := by
  cases m with
  | position => rfl
  | immediate => rfl
  | relative => exact absurd rfl hm

/-- A fault taken leaves `rb` alone, so `orFault` commutes with replacing it where the rest does. -/
theorem orFault_setRb {α : Type} {s : State} {r : Int} {x : Except Raise α} {k k' : α → Answer}
    (h : ∀ a, k' a = setRbInAnswer r (k a)) : orFault (s.setRb r) x k' = setRbInAnswer r (orFault s x k) := by
  cases x with
  | error e => rfl
  | ok a => exact h a

/-- How every storing instruction ends, the write into `s'` (for IN, `s` with the front of the queue removed) and the
advance to `p`, commutes with replacing `rb`. -/
theorem orFault_memWrite_setRb (s s' : State) (r d v p : Int) :
    orFault (s.setRb r) (memWrite (s'.setRb r) d v) (fun t => .next (t.continueAt p)) =
      setRbInAnswer r (orFault s (memWrite s' d v) fun t => .next (t.continueAt p)) := by
  unfold memWrite
  rw [checkAddr_setRb]
  cases checkAddr s' d with
  | error e => rfl
  | ok a => rfl

/-! ### The instructions -/

theorem storeResult_setRb {f : Int → Int → Except Raise Int} {m1 m2 m3 : Mode} (h1 : m1 ≠ .relative)
    (h2 : m2 ≠ .relative) (h3 : m3 ≠ .relative) (s : State) (r : Int) :
    storeResult f m1 m2 m3 (s.setRb r) = setRbInAnswer r (storeResult f m1 m2 m3 s) := by
  simp only [storeResult, readParam_setRb h1, readParam_setRb h2, writeAddr_setRb h3, State.setRb_pc]
  exact orFault_setRb fun _ => orFault_setRb fun _ => orFault_setRb fun v => orFault_setRb fun d =>
    orFault_memWrite_setRb s s r d v (s.pc + 4)

theorem jumpIf_setRb {p : Int → Bool} {m1 m2 : Mode} (h1 : m1 ≠ .relative) (h2 : m2 ≠ .relative) (s : State)
    (r : Int) : jumpIf p m1 m2 (s.setRb r) = setRbInAnswer r (jumpIf p m1 m2 s) := by
  simp only [jumpIf, readParam_setRb h1, readParam_setRb h2, State.setRb_pc]
  exact orFault_setRb fun _ => orFault_setRb fun _ => rfl

theorem execInp_setRb {m1 : Mode} (h1 : m1 ≠ .relative) (s : State) (r : Int) :
    execInp m1 (s.setRb r) = setRbInAnswer r (execInp m1 s) := by
  simp only [execInp, State.setRb_inq, State.setRb_pc, writeAddr_setRb h1]
  cases s.inq with
  | nil => rfl
  | cons v q => exact orFault_setRb fun d => orFault_memWrite_setRb s { s with inq := q } r d v (s.pc + 2)

theorem execOut_setRb {m1 : Mode} (h1 : m1 ≠ .relative) (s : State) (r : Int) :
    execOut m1 (s.setRb r) = setRbInAnswer r (execOut m1 s) := by
  simp only [execOut, readParam_setRb h1]
  exact orFault_setRb fun _ => rfl

/-- An instruction that does not read `rb` does the same whatever `rb` holds (R15). -/
theorem exec_setRb {i : Instr} (hi : readsRelativeBase i = false) (s : State) (r : Int) :
    exec i (s.setRb r) = setRbInAnswer r (exec i s) := by
  cases i <;> simp only [readsRelativeBase, decide_eq_false_iff_not, not_or, reduceCtorEq] at hi
  case add | mul | lt | eq =>
    obtain ⟨h1, h2, h3⟩ := hi
    exact storeResult_setRb h1 h2 h3 s r
  case jt | jf =>
    obtain ⟨h1, h2⟩ := hi
    exact jumpIf_setRb h1 h2 s r
  case inp => exact execInp_setRb hi s r
  case out => exact execOut_setRb hi s r
  case hlt => rfl

/-- Only ARB writes `rb` (R15). -/
theorem exec_rb_eq_or_arb {i : Instr} {s t : State} (h : exec i s = .next t) : t.rb = s.rb ∨ ∃ m1, i = .arb m1 := by
  cases exec_effect h with
  | adjust => exact .inr ⟨_, rfl⟩
  | fault | store | input | suspend | output | jump | noJump | halt => exact .inl rfl

/-- Settles O35: what writes `rb` is read off the effect of the instruction, and an instruction that does not read it
commutes with replacing it. -/
theorem onlyArbWritesRelativeBase : Obligations.OnlyArbWritesRelativeBase := by
  intro s t i h
  refine ⟨(exec_rb_eq_or_arb h).resolve_left, fun hi r => ?_⟩
  have hr := exec_setRb hi s r
  rwa [h, setRbInAnswer_next] at hr

end Sys2Proof.Machine
end

section
/-!
SUPPORT. `MemWrite` (20_memory.md R44): when it raises, and what a write that succeeds leaves unchanged.
-/

namespace Sys2Proof.Machine

theorem memWrite_error {s : State} {a v : Int} {r : Raise} : memWrite s a v = .error r ↔ checkAddr s a = .error r := by
  unfold memWrite
  cases checkAddr s a with
  | error r' => simp
  | ok d => simp

/-- A write to an address changes no cell at any other address. -/
theorem Memory.read_write_toNat_of_ne (m : Memory) {a : Int} (ha : 0 ≤ a) {x : Nat} (hx : (x : Int) ≠ a) (v : Int) :
    Memory.read (Memory.write m a.toNat v) x = Memory.read m x :=
  Memory.read_write_of_ne m (by omega) v

/-- Settles O8: the raise lines are those of the bounds check; inside memory the write is `Memory.write`, whose read laws
give the cells; and a resolved destination is inside memory. -/
theorem memWriteReplacesOneCell : Obligations.MemWriteReplacesOneCell := by
  intro s a v
  refine ⟨fun ha => ?underflow, fun h0 hcap => ?capacity, fun h0 hcap => ?replaces, fun k m hd => ?resolved⟩
  case underflow => exact memWrite_error.mpr (checkAddr_error.mpr (.inl ⟨ha, rfl⟩))
  case capacity => exact memWrite_error.mpr (checkAddr_error.mpr (.inr ⟨h0, hcap, rfl⟩))
  case replaces =>
    exact ⟨_, memWrite_ok.mpr ⟨h0, hcap, rfl⟩, Memory.read_write_self .., fun x hx =>
      Memory.read_write_toNat_of_ne s.mem h0 hx v, rfl⟩
  case resolved => exact ⟨_, memWrite_of_writeAddr hd s.inq v⟩

end Sys2Proof.Machine
end

section
/-!
SUPPORT. The rejection of an Immediate destination (30_encoding.md R66), and the source's two worked decodes (R64).
-/

namespace Sys2Proof

/-- A word that splits, with a defined opcode whose destination is Immediate, is rejected as `InvalidWriteTarget`
(R66). -/
theorem decode_eq_invalidWriteTarget {raw op : Nat} {m1 m2 m3 : Mode} {i : Instr}
    (hs : splitWord raw = some (op, m1, m2, m3)) (hi : instrOf op m1 m2 m3 = some i)
    (hw : writesImmediate op m1 m3 = true) : decode raw = .error .invalidWriteTarget := by
  have h0 : ¬ (raw : Int) < 0 := by omega
  simp [decode, h0, hs, hi, hw]

/-- Settles O1: both words split into their digits, and opcode 2 writes through its third parameter, which is Immediate
in the second word. -/
theorem workedDecodesOfTheSource : Obligations.WorkedDecodesOfTheSource := by
  have hmul : splitWord 1002 = some (2, .position, .immediate, .position) := splitWord_some.mpr (by decide)
  have hbad : splitWord 11102 = some (2, .immediate, .immediate, .immediate) := splitWord_some.mpr (by decide)
  exact ⟨hmul, hbad, decode_eq_invalidWriteTarget hbad rfl rfl⟩

end Sys2Proof
end

section
/-!
SUPPORT. The digits of instruction words (30_encoding.md R60, R63, R67): each instruction's word in terms of its opcode
and modes, and which words decode to which instruction or are rejected by which fault.
-/

namespace Sys2Proof

/-! ### Mode digits and opcodes -/

theorem Mode.toDigit_le_two (m : Mode) : m.toDigit ≤ 2 := by
  cases m <;> decide

theorem Mode.toDigit_eq_one {m : Mode} : m.toDigit = 1 ↔ m = .immediate := by
  cases m <;> decide

theorem exists_toDigit_of_le_two {d : Nat} (h : d ≤ 2) : ∃ m : Mode, d = m.toDigit := by
  obtain ⟨m, hm⟩ := Option.ne_none_iff_exists'.mp (mt modeOfDigit_none.mp (not_lt.mpr h))
  exact ⟨m, modeOfDigit_some.mp hm⟩

/-- The mode of parameter `k` of an instruction, Position where it has no such parameter. -/
def Instr.modeAt : Instr → Nat → Mode
  | .add m1 m2 m3, k => match k with | 1 => m1 | 2 => m2 | 3 => m3 | _ => .position
  | .mul m1 m2 m3, k => match k with | 1 => m1 | 2 => m2 | 3 => m3 | _ => .position
  | .inp m1, k => match k with | 1 => m1 | _ => .position
  | .out m1, k => match k with | 1 => m1 | _ => .position
  | .jt m1 m2, k => match k with | 1 => m1 | 2 => m2 | _ => .position
  | .jf m1 m2, k => match k with | 1 => m1 | 2 => m2 | _ => .position
  | .lt m1 m2 m3, k => match k with | 1 => m1 | 2 => m2 | 3 => m3 | _ => .position
  | .eq m1 m2 m3, k => match k with | 1 => m1 | 2 => m2 | 3 => m3 | _ => .position
  | .arb m1, k => match k with | 1 => m1 | _ => .position
  | .hlt, _ => .position

/-- The word of an instruction is made of its opcode and its modes. -/
theorem encode_eq_wordOf (i : Instr) :
    encode i = wordOf (i.modeAt 1).toDigit (i.modeAt 2).toDigit (i.modeAt 3).toDigit i.opcode := by
  cases i <;> rfl

/-- The opcode map gives `i` for the opcode of `i` and modes that are those of `i` at the parameters it has. -/
theorem instrOf_eq_some {op : Nat} {m1 m2 m3 : Mode} {i : Instr} :
    instrOf op m1 m2 m3 = some i ↔
      op = i.opcode ∧ (1 < i.width → m1 = i.modeAt 1) ∧ (2 < i.width → m2 = i.modeAt 2) ∧
        (3 < i.width → m3 = i.modeAt 3) := by
  constructor
  · intro h
    unfold instrOf at h
    split at h <;> cases h <;> simp [Instr.opcode, Instr.width, Instr.modeAt]
  · rintro ⟨rfl, h1, h2, h3⟩
    cases i <;> simp_all [Instr.opcode, Instr.width, Instr.modeAt, instrOf]

/-- The opcodes that are defined (R67). -/
theorem instrOf_eq_none {op : Nat} {m1 m2 m3 : Mode} :
    instrOf op m1 m2 m3 = none ↔ op ∉ [1, 2, 3, 4, 5, 6, 7, 8, 9, 99] := by
  unfold instrOf
  split <;> simp_all

/-- Which destinations the decode stage rejects (R66). -/
theorem writesImmediate_eq_true {op : Nat} {m1 m3 : Mode} :
    writesImmediate op m1 m3 = true ↔ (op ∈ [1, 2, 7, 8] ∧ m3 = .immediate) ∨ (op = 3 ∧ m1 = .immediate) := by
  unfold writesImmediate
  split <;> simp_all

/-- The decode stage's check of the destination is well-formedness of the instruction decoded (R66, R69). -/
theorem writesImmediate_eq_not_wf {op : Nat} {m1 m2 m3 : Mode} {i : Instr} (h : instrOf op m1 m2 m3 = some i) :
    writesImmediate op m1 m3 = !i.wf := by
  unfold instrOf at h
  split at h <;> cases h <;> simp [writesImmediate, Instr.wf]

theorem Instr.opcode_lt (i : Instr) : i.opcode < 100 := by
  cases i <;> simp [Instr.opcode]

/-! ### The digits of a word written `CBAoo` -/

/-- The two low digits and the three mode digits of a word, whatever stands above them. -/
theorem digits_wordOf {a b c op : Nat} (ha : a ≤ 2) (hb : b ≤ 2) (hc : c ≤ 2) (hop : op < 100) (h : Nat) :
    (wordOf a b c op + 100000 * h) % 100 = op ∧ digit (wordOf a b c op + 100000 * h) 2 = a ∧
    digit (wordOf a b c op + 100000 * h) 3 = b ∧ digit (wordOf a b c op + 100000 * h) 4 = c := by
  unfold digit wordOf
  refine ⟨?_, ?_, ?_, ?_⟩ <;> omega

/-- The mode digits of an instruction's canonical word are its modes. -/
theorem digit_encode {i : Instr} {k : Nat} (h1 : 1 ≤ k) (h3 : k ≤ 3) :
    digit (encode i) (k + 1) = (i.modeAt k).toDigit := by
  obtain ⟨-, ha, hb, hc⟩ := digits_wordOf (i.modeAt 1).toDigit_le_two (i.modeAt 2).toDigit_le_two
    (i.modeAt 3).toDigit_le_two i.opcode_lt 0
  rw [← encode_eq_wordOf, Nat.mul_zero, Nat.add_zero] at ha hb hc
  obtain rfl | rfl | rfl : k = 1 ∨ k = 2 ∨ k = 3 := by omega
  · exact ha
  · exact hb
  · exact hc

/-! ### What a word decodes to -/

/-- A word decodes to `i` exactly when its mode digits are modes, of which the opcode map makes `i`, well-formed. -/
theorem decode_eq_ok {raw : Int} {i : Instr} :
    decode raw = .ok i ↔
      0 ≤ raw ∧ i.wf = true ∧ ∃ m1 m2 m3, digit raw.toNat 2 = m1.toDigit ∧ digit raw.toNat 3 = m2.toDigit ∧
        digit raw.toNat 4 = m3.toDigit ∧ instrOf (raw.toNat % 100) m1 m2 m3 = some i := by
  rw [decode_ok]
  refine and_congr_right fun _ => ⟨?_, ?_⟩
  · rintro ⟨op, m1, m2, m3, hs, hi, hw⟩
    obtain ⟨rfl, h1, h2, h3⟩ := splitWord_some.mp hs
    rw [writesImmediate_eq_not_wf hi, Bool.not_eq_false'] at hw
    exact ⟨hw, m1, m2, m3, h1, h2, h3, hi⟩
  · rintro ⟨hw, m1, m2, m3, h1, h2, h3, hi⟩
    exact ⟨_, m1, m2, m3, splitWord_some.mpr ⟨rfl, h1, h2, h3⟩, hi, by rw [writesImmediate_eq_not_wf hi, hw]; rfl⟩

/-- A word written with defined opcode and mode digits decodes to the instruction of these, whatever stands above. -/
theorem decode_wordOf {op : Nat} {m1 m2 m3 : Mode} {i : Instr} (hi : instrOf op m1 m2 m3 = some i) (hw : i.wf = true)
    (h : Nat) : decode ((wordOf m1.toDigit m2.toDigit m3.toDigit op + 100000 * h : Nat) : Int) = .ok i := by
  have hop : op < 100 := opcode_of_instrOf hi ▸ i.opcode_lt
  obtain ⟨h0, h1, h2, h3⟩ := digits_wordOf m1.toDigit_le_two m2.toDigit_le_two m3.toDigit_le_two hop h
  exact decode_eq_ok.mpr ⟨Int.natCast_nonneg _, hw, m1, m2, m3, h1, h2, h3, by rw [Int.toNat_natCast, h0]; exact hi⟩

/-- Settles O3: the word is made of the opcode and the modes of the instruction, of which the opcode map makes the
instruction again. -/
theorem decodeOfEncodeIsIdentity : Obligations.DecodeOfEncodeIsIdentity := by
  intro i h hw
  have hi : instrOf i.opcode (i.modeAt 1) (i.modeAt 2) (i.modeAt 3) = some i :=
    instrOf_eq_some.mpr ⟨rfl, fun _ => rfl, fun _ => rfl, fun _ => rfl⟩
  have hd := decode_wordOf hi hw h
  rw [← encode_eq_wordOf] at hd
  exact_mod_cast hd

/-- Settles O4: the modes the word's digits stand for are those of `i` where `i` has a parameter, and any mode where it
has none. -/
theorem decodesIffDigitsAgree : Obligations.DecodesIffDigitsAgree := by
  intro raw i
  rw [decode_eq_ok]
  refine and_congr_right fun _ => and_congr_right fun _ => ⟨?_, ?_⟩
  · rintro ⟨m1, m2, m3, d1, d2, d3, hi⟩
    obtain ⟨hop, h1, h2, h3⟩ := instrOf_eq_some.mp hi
    have agree : ∀ {k d : Nat} {m : Mode}, d = m.toDigit → (k < i.width → m = i.modeAt k) → 1 ≤ k → k ≤ 3 →
        if k < i.width then d = digit (encode i) (k + 1) else d ≤ 2 := by
      intro k d m hd hm hk1 hk3
      split
      · next hk => rw [digit_encode hk1 hk3, hd, hm hk]
      · exact hd ▸ m.toDigit_le_two
    refine ⟨hop, fun k hk1 hk3 => ?_⟩
    obtain rfl | rfl | rfl : k = 1 ∨ k = 2 ∨ k = 3 := by omega
    · exact agree d1 h1 hk1 hk3
    · exact agree d2 h2 hk1 hk3
    · exact agree d3 h3 hk1 hk3
  · rintro ⟨hop, hk⟩
    have mode : ∀ k, 1 ≤ k → k ≤ 3 → ∃ m : Mode, digit raw.toNat (k + 1) = m.toDigit ∧
        (k < i.width → m = i.modeAt k) := by
      intro k hk1 hk3
      have hd := hk k hk1 hk3
      split at hd
      · exact ⟨i.modeAt k, hd.trans (digit_encode hk1 hk3), fun _ => rfl⟩
      · next hkw =>
        obtain ⟨m, hm⟩ := exists_toDigit_of_le_two hd
        exact ⟨m, hm, fun h => absurd h hkw⟩
    obtain ⟨m1, d1, h1⟩ := mode 1 (by decide) (by decide)
    obtain ⟨m2, d2, h2⟩ := mode 2 (by decide) (by decide)
    obtain ⟨m3, d3, h3⟩ := mode 3 (by decide) (by decide)
    exact ⟨m1, m2, m3, d1, d2, d3, instrOf_eq_some.mpr ⟨hop, h1, h2, h3⟩⟩

/-! ### Which words are illegal, and which fault they report -/

/-- The three mode digits of a word select modes (R63, R65). -/
def ModeDigitsLegal (n : Nat) : Prop := digit n 2 ≤ 2 ∧ digit n 3 ≤ 2 ∧ digit n 4 ≤ 2

/-- The two low digits of a word are a defined opcode (R67). -/
def OpcodeDefined (n : Nat) : Prop := n % 100 ∈ [1, 2, 3, 4, 5, 6, 7, 8, 9, 99]

/-- The mode digit of the parameter that a word's opcode writes is 1 (R66). -/
def TargetImmediate (n : Nat) : Prop :=
  (n % 100 ∈ [1, 2, 7, 8] ∧ digit n 4 = 1) ∨ (n % 100 = 3 ∧ digit n 2 = 1)

theorem ModeDigitsLegal.exists_modes {n : Nat} (h : ModeDigitsLegal n) :
    ∃ m1 m2 m3 : Mode, digit n 2 = m1.toDigit ∧ digit n 3 = m2.toDigit ∧ digit n 4 = m3.toDigit := by
  obtain ⟨h1, h2, h3⟩ := h
  obtain ⟨m1, h1⟩ := exists_toDigit_of_le_two h1
  obtain ⟨m2, h2⟩ := exists_toDigit_of_le_two h2
  obtain ⟨m3, h3⟩ := exists_toDigit_of_le_two h3
  exact ⟨m1, m2, m3, h1, h2, h3⟩

/-- A writing opcode is a defined one. -/
theorem TargetImmediate.opcodeDefined {n : Nat} (h : TargetImmediate n) : OpcodeDefined n := by
  unfold OpcodeDefined
  rcases h with ⟨h, -⟩ | ⟨h, -⟩ <;> simp at h ⊢ <;> omega

/-- The outcomes of the decode stage in the order in which R66 tests for them, each with the words that have it. -/
inductive DecodeOutcome (raw : Int) : Prop where
  | negative : raw < 0 → decode raw = .error .unknownOpcode → DecodeOutcome raw
  | badMode : 0 ≤ raw → ¬ ModeDigitsLegal raw.toNat → decode raw = .error .invalidMode → DecodeOutcome raw
  | badOpcode : 0 ≤ raw → ModeDigitsLegal raw.toNat → ¬ OpcodeDefined raw.toNat →
      decode raw = .error .unknownOpcode → DecodeOutcome raw
  | badTarget : 0 ≤ raw → ModeDigitsLegal raw.toNat → TargetImmediate raw.toNat →
      decode raw = .error .invalidWriteTarget → DecodeOutcome raw
  | legal (i : Instr) : 0 ≤ raw → ModeDigitsLegal raw.toNat → OpcodeDefined raw.toNat → ¬ TargetImmediate raw.toNat →
      decode raw = .ok i → DecodeOutcome raw

theorem decode_outcome (raw : Int) : DecodeOutcome raw := by
  by_cases hneg : raw < 0
  · exact .negative hneg (if_pos hneg)
  have h0 : 0 ≤ raw := not_lt.mp hneg
  by_cases hm : ModeDigitsLegal raw.toNat
  case neg =>
    have hs : splitWord raw.toNat = none := splitWord_none.mpr (by unfold ModeDigitsLegal at hm; omega)
    exact .badMode h0 hm (by simp [decode, hneg, hs])
  obtain ⟨m1, m2, m3, h1, h2, h3⟩ := hm.exists_modes
  have hs : splitWord raw.toNat = some (raw.toNat % 100, m1, m2, m3) := splitWord_some.mpr ⟨rfl, h1, h2, h3⟩
  have htarget : TargetImmediate raw.toNat ↔ writesImmediate (raw.toNat % 100) m1 m3 = true := by
    rw [writesImmediate_eq_true, TargetImmediate, h1, h3, Mode.toDigit_eq_one, Mode.toDigit_eq_one]
  cases hi : instrOf (raw.toNat % 100) m1 m2 m3 with
  | none => exact .badOpcode h0 hm (instrOf_eq_none.mp hi) (by simp [decode, hneg, hs, hi])
  | some i =>
    by_cases hw : writesImmediate (raw.toNat % 100) m1 m3 = true
    · exact .badTarget h0 hm (htarget.mpr hw) (by simp [decode, hneg, hs, hi, hw])
    · have hop : OpcodeDefined raw.toNat := by
        by_contra hop
        rw [instrOf_eq_none.mpr hop] at hi
        cases hi
      exact .legal i h0 hm hop (mt htarget.mp hw) (by simp [decode, hneg, hs, hi, hw])

/-! Each outcome read as an equivalence: the words of one outcome have none of the others. -/

theorem decode_eq_unknownOpcode {raw : Int} : decode raw = .error .unknownOpcode ↔
    raw < 0 ∨ (ModeDigitsLegal raw.toNat ∧ ¬ OpcodeDefined raw.toNat) := by
  cases decode_outcome raw with
  | negative h hd => simp [h, hd]
  | badMode h hm hd => simp [h, hm, hd]
  | badOpcode h hm ho hd => simp [hm, ho, hd]
  | badTarget h hm ht hd => simp [h, ht.opcodeDefined, hd]
  | legal i h hm ho ht hd => simp [h, ho, hd]

theorem decode_eq_invalidMode {raw : Int} : decode raw = .error .invalidMode ↔
    0 ≤ raw ∧ ¬ ModeDigitsLegal raw.toNat := by
  cases decode_outcome raw with
  | negative h hd => simp [h, hd]
  | badMode h hm hd => simp [h, hm, hd]
  | badOpcode h hm ho hd => simp [hm, hd]
  | badTarget h hm ht hd => simp [hm, hd]
  | legal i h hm ho ht hd => simp [hm, hd]

theorem decode_eq_invalidWriteTarget_iff {raw : Int} : decode raw = .error .invalidWriteTarget ↔
    0 ≤ raw ∧ ModeDigitsLegal raw.toNat ∧ TargetImmediate raw.toNat := by
  cases decode_outcome raw with
  | negative h hd => simp [h, hd]
  | badMode h hm hd => simp [hm, hd]
  | badOpcode h hm ho hd => simp [hd, mt TargetImmediate.opcodeDefined ho]
  | badTarget h hm ht hd => simp [h, hm, ht, hd]
  | legal i h hm ho ht hd => simp [ht, hd]

theorem exists_decode_eq_ok {raw : Int} : (∃ i, decode raw = .ok i) ↔
    0 ≤ raw ∧ ModeDigitsLegal raw.toNat ∧ OpcodeDefined raw.toNat ∧ ¬ TargetImmediate raw.toNat := by
  cases decode_outcome raw with
  | negative h hd => simp [h, hd]
  | badMode h hm hd => simp [hm, hd]
  | badOpcode h hm ho hd => simp [ho, hd]
  | badTarget h hm ht hd => simp [ht, hd]
  | legal i h hm ho ht hd => simp [h, hm, ho, ht, hd]

/-- Settles O5: the words that decode are those with none of the grounds of refusal. -/
theorem legalWordsExactly : Obligations.LegalWordsExactly := by
  intro raw
  rw [exists_decode_eq_ok, TargetImmediate, not_or, not_and, not_and]
  simp only [ModeDigitsLegal, OpcodeDefined, and_assoc, ne_eq]

/-- Settles O6: each fault is reported by exactly the words that its outcome of the decode stage names. -/
theorem encodingFaultPriority : Obligations.EncodingFaultPriority := by
  intro raw
  rw [decode_eq_unknownOpcode, decode_eq_invalidMode, decode_eq_invalidWriteTarget_iff]
  simp only [ModeDigitsLegal, OpcodeDefined, TargetImmediate, and_assoc, not_and_or, not_le, true_and]

/-! ### Lengths -/

/-- The width of an instruction is a function of its opcode (R61, R68). -/
theorem width_eq_of_opcode (i : Instr) : i.width =
    if i.opcode = 99 then 1 else if i.opcode ∈ [3, 4, 9] then 2 else if i.opcode ∈ [5, 6] then 3 else 4 := by
  cases i <;> rfl

theorem Instr.width_le_four (i : Instr) : i.width ≤ 4 := by
  cases i <;> simp [Instr.width]

/-- Settles O7: the opcode of the instruction decoded is the two low digits of the word. -/
theorem lengthFromOpcodeAlone : Obligations.LengthFromOpcodeAlone := by
  intro raw i hd
  obtain ⟨h0, -, m1, m2, m3, -, -, -, hi⟩ := decode_eq_ok.mp hd
  have hop : raw % 100 = (i.opcode : Int) := by rw [opcode_of_instrOf hi]; omega
  rw [width_eq_of_opcode, hop]
  simp only [List.mem_cons, List.not_mem_nil, or_false]
  norm_cast

/-- Settles O2: every word is a closed number, of which the decoder is evaluated. -/
theorem sampleWordsDecode : Obligations.SampleWordsDecode := by
  unfold Obligations.SampleWordsDecode
  decide

end Sys2Proof
end

section
/-!
SUPPORT. Fetch and one step (40_engine.md R82, R84, R85): which instruction or fault a fetch gives, what a step then is,
and how an instruction ends, read off its effect.
-/

namespace Sys2Proof.Machine

/-! ### Fetch -/

/-- An instruction stands at `pc` exactly where the fetch gives it. -/
theorem atInstr_iff_fetchDecode {s : State} {i : Instr} : s.AtInstr i ↔ fetchDecode s = .ok i := fetchDecode_ok.symm

/-- One instruction at most stands at `pc`. -/
theorem State.AtInstr.unique {s : State} {i j : Instr} (hi : s.AtInstr i) (hj : s.AtInstr j) : i = j :=
  Except.ok.inj ((atInstr_iff_fetchDecode.mp hi).symm.trans (atInstr_iff_fetchDecode.mp hj))

/-- An IN that stands at `pc` is legal: its destination is not Immediate (R66). -/
theorem State.AtInstr.inp_ne_immediate {s : State} {m : Mode} (h : s.AtInstr (.inp m)) : m ≠ .immediate := by
  obtain ⟨-, -, hd⟩ := h
  obtain ⟨-, hwf, -⟩ := decode_eq_ok.mp hd
  exact of_decide_eq_true hwf

/-- A fetch from a cell that exists is the decoding of its word, whose encoding fault is raised with the word. -/
theorem fetchDecode_of_memRead {s : State} {raw : Int} (h : memRead s s.pc = .ok raw) :
    fetchDecode s = (decode raw).mapError fun e => ⟨causeOf e, raw⟩ := by
  simp only [fetchDecode, h]
  cases decode raw <;> rfl

/-- A fetch from a cell that does not exist raises the fault of the bounds check. -/
theorem fetchDecode_of_checkAddr {s : State} {r : Raise} (h : checkAddr s s.pc = .error r) :
    fetchDecode s = .error r := by
  simp only [fetchDecode, memRead_error.mpr h]

/-! ### Step -/

/-- A step of an engine that is not terminal fetches, and takes the fault or executes the instruction. -/
theorem step_of_active {s : State} (hs : s.rs = .running ∨ s.rs = .awaitingInput) :
    step s = orFault s.enterActivation (fetchDecode s) fun i => exec i s.enterActivation := by
  rcases hs with hs | hs <;> simp [step, enginePass, hs]

theorem step_of_atInstr {s : State} {i : Instr} (hs : s.rs = .running ∨ s.rs = .awaitingInput) (hi : s.AtInstr i) :
    step s = exec i s.enterActivation := by
  rw [step_of_active hs, atInstr_iff_fetchDecode.mp hi, orFault_ok]

theorem step_of_fetch_error {s : State} {r : Raise} (hs : s.rs = .running ∨ s.rs = .awaitingInput)
    (hr : fetchDecode s = .error r) : step s = .next (s.enterActivation.faultEntry r) := by
  rw [step_of_active hs, hr, orFault_error]

theorem step_of_halted {s : State} (hs : s.rs = .halted) : step s = .next (s.returnSignal .halt) := by
  simp [step, enginePass, hs]

theorem step_of_faulted {s : State} (hs : s.rs = .faulted) : step s = .next (s.returnSignal (.fault s.fc s.fi)) := by
  simp [step, enginePass, hs]

/-- Everything a step can do, named: a terminal engine repeats its signal, and any other takes a fault of the fetch or
has the effect of the instruction at `pc`. -/
inductive StepEffect (s t : State) : Prop where
  | halted : s.rs = .halted → t = s.returnSignal .halt → StepEffect s t
  | faulted : s.rs = .faulted → t = s.returnSignal (.fault s.fc s.fi) → StepEffect s t
  | fetchFault (r : Raise) : (s.rs = .running ∨ s.rs = .awaitingInput) → fetchDecode s = .error r →
      t = s.enterActivation.faultEntry r → StepEffect s t
  | exec (i : Instr) : (s.rs = .running ∨ s.rs = .awaitingInput) → s.AtInstr i →
      exec i s.enterActivation = .next t → ExecEffect i s.enterActivation t → StepEffect s t

theorem step_effect {s t : State} (h : step s = .next t) : StepEffect s t := by
  obtain ⟨hs, rfl⟩ | ⟨hs, rfl⟩ | ⟨hs, ⟨r, hr, rfl⟩ | ⟨i, hi, he⟩⟩ := step_cases h
  · exact .halted hs rfl
  · exact .faulted hs rfl
  · exact .fetchFault r hs hr rfl
  · exact .exec i hs (atInstr_iff_fetchDecode.mpr hi) he (exec_effect he)

/-- An instruction that leaves a Running engine Faulted has taken a fault. -/
theorem ExecEffect.eq_faultEntry {i : Instr} {s t : State} (h : ExecEffect i s t) (hs : s.rs = .running)
    (ht : t.rs = .faulted) : ∃ r, t = s.faultEntry r := by
  cases h with
  | fault r => exact ⟨r, rfl⟩
  | store | input | output | jump | noJump | adjust => simp [hs] at ht
  | suspend | halt => simp at ht

/-! ### Faults taken -/

theorem faultTaken_faultEntry (s : State) (r : Raise) : FaultTaken s (s.faultEntry r) r.cause r.info := by
  constructor <;> rfl

/-- A fault taken in an activation is one taken by the engine before it, since entry changes nothing but `rs`. -/
theorem faultTaken_enterActivation (s : State) (r : Raise) :
    FaultTaken s (s.enterActivation.faultEntry r) r.cause r.info := by
  constructor <;> rfl

/-- A fetch that raises is a step that takes that fault, with its code. -/
theorem step_takes_fetch_fault {s : State} {c : FaultCause} {info : Int}
    (hs : s.rs = .running ∨ s.rs = .awaitingInput) (hr : fetchDecode s = .error ⟨c, info⟩) :
    ∃ t, step s = .next t ∧ FaultTaken s t c info ∧ t.fc = c.code :=
  ⟨_, step_of_fetch_error hs hr, faultTaken_enterActivation s ⟨c, info⟩, rfl⟩

/-- Settles O13: the fetch gives the instruction, and `enterActivation` is what sets `rs`. -/
theorem stepRunsDecodedInstruction : Obligations.StepRunsDecodedInstruction := by
  intro s i hs hi
  exact step_of_atInstr hs hi

/-- Settles O14. -/
theorem terminalStepOnlyAnswers : Obligations.TerminalStepOnlyAnswers := by
  intro s
  exact ⟨step_of_halted, step_of_faulted⟩

/-- Settles O15: the bounds check of the fetch raises the fault. -/
theorem fetchOutsideMemoryFaults : Obligations.FetchOutsideMemoryFaults := by
  intro s hs
  refine ⟨fun hpc => ?_, fun h0 hcap => ?_⟩
  · exact step_takes_fetch_fault hs (fetchDecode_of_checkAddr (checkAddr_error.mpr (.inl ⟨hpc, rfl⟩)))
  · exact step_takes_fetch_fault hs (fetchDecode_of_checkAddr (checkAddr_error.mpr (.inr ⟨h0, hcap, rfl⟩)))

/-- Settles O16: the fetch raises the encoding fault with the word, before any instruction is executed. -/
theorem illegalWordFaults : Obligations.IllegalWordFaults := by
  rintro s w hs h0 hcap rfl
  have hfetch : ∀ e, decode (s.mem.read s.pc.toNat) = .error e →
      fetchDecode s = .error ⟨causeOf e, s.mem.read s.pc.toNat⟩ := by
    intro e he
    rw [fetchDecode_of_memRead (memRead_ok.mpr ⟨h0, hcap, rfl⟩), he]
    rfl
  exact ⟨fun he => step_takes_fetch_fault hs (hfetch _ he), fun he => step_takes_fetch_fault hs (hfetch _ he),
    fun he => step_takes_fetch_fault hs (hfetch _ he)⟩

/-- Settles O58: the codes are read off the definition, cause by cause. -/
theorem faultEntryRecordsCode : Obligations.FaultEntryRecordsCode := by
  intro s c info
  cases c <;> exact ⟨rfl, rfl⟩

end Sys2Proof.Machine
end

section
/-!
SUPPORT. The invariant `State.Inv` (10_state.md section 8). Its part about values, `ValuesInv`, is kept by every effect of
an instruction; the part about `rs`, `fc`, `fi`, `pc` and the signal follows from how the step ends.
-/

namespace Sys2Proof.Machine

/-- The part of the invariant that speaks of the capacity, of memory and of the range of values. -/
structure State.ValuesInv (s : State) : Prop where
  cap : 1 ≤ s.memCap ∧ s.memCap ≤ Config.memCapMax
  memWf : s.mem.wf
  memWithin : ∀ e ∈ s.mem, e.1 < s.memCap
  memRange : ∀ e ∈ s.mem, InInt64 e.2
  pcRange : InInt64 s.pc
  rbRange : InInt64 s.rb
  inqRange : AllInt64 s.inq
  outlogRange : AllInt64 s.outlog

theorem State.Inv.values {s : State} (h : s.Inv) : s.ValuesInv :=
  ⟨h.cap, h.memWf, h.memWithin, h.memRange, h.pcRange, h.rbRange, h.inqRange, h.outlogRange⟩

/-! ### What keeps the values -/

/-- A write of an `Int64` value to a cell that exists keeps memory canonical, inside the capacity and in range. -/
theorem State.ValuesInv.write {s : State} (hs : s.ValuesInv) {d v : Int} (hd : 0 ≤ d ∧ d < s.memCap) (hv : InInt64 v) :
    State.ValuesInv { s with mem := s.mem.write d.toNat v } where
  cap := hs.cap
  memWf := Memory.write_wf hs.memWf _ _
  memWithin e he := by
    obtain ⟨rfl, -⟩ | he := Memory.mem_write he
    · show d.toNat < s.memCap; omega
    · exact hs.memWithin e he
  memRange e he := by
    obtain ⟨rfl, -⟩ | he := Memory.mem_write he
    · exact hv
    · exact hs.memRange e he
  pcRange := hs.pcRange
  rbRange := hs.rbRange
  inqRange := hs.inqRange
  outlogRange := hs.outlogRange

/-- The front of the queue is in range, and taking it out keeps the values. -/
theorem State.ValuesInv.pop {s : State} (hs : s.ValuesInv) {v : Int} {q : List Int} (hq : s.inq = v :: q) :
    InInt64 v ∧ State.ValuesInv { s with inq := q } := by
  obtain ⟨hv, hrest⟩ := List.forall_mem_cons.mp (hq ▸ hs.inqRange)
  exact ⟨hv, { hs with inqRange := hrest }⟩

theorem State.ValuesInv.continueAt {s : State} (hs : s.ValuesInv) {p : Int} (hp : InInt64 p) :
    (s.continueAt p).ValuesInv := { hs with pcRange := hp }

/-- `pc` can move past any instruction without leaving `Int64` (R1, R13): this is what bounds the capacity. -/
theorem State.ValuesInv.pc_add {s : State} (hs : s.ValuesInv) (hpc : 0 ≤ s.pc ∧ s.pc < s.memCap) {w : Nat} (hw : w ≤ 4) :
    InInt64 (s.pc + w) := by
  obtain ⟨-, hcap⟩ := hs.cap
  unfold Config.memCapMax at hcap
  constructor <;> omega

/-- Every effect of an instruction in a cell that exists keeps the values. -/
theorem ExecEffect.valuesInv {i : Instr} {s t : State} (he : ExecEffect i s t) (hs : s.ValuesInv)
    (hpc : 0 ≤ s.pc ∧ s.pc < s.memCap) : t.ValuesInv := by
  cases he with
  | fault r => exact { hs with }
  | store hi hd hv => exact (hs.write (writeAddr_bounds hd) hv).continueAt (hs.pc_add hpc i.width_le_four)
  | input hq hd =>
    obtain ⟨hv, hpop⟩ := hs.pop hq
    exact (hpop.write (writeAddr_bounds hd) hv).continueAt (hs.pc_add hpc (w := 2) (by decide))
  | suspend => exact { hs with }
  | output hv =>
    refine { hs with pcRange := hs.pc_add hpc (w := 2) (by decide), outlogRange := ?_ }
    exact List.forall_mem_append.mpr ⟨hs.outlogRange, List.forall_mem_singleton.mpr (readParam_inInt64 hs.memRange hv)⟩
  | jump _ ha => exact hs.continueAt (readParam_inInt64 hs.memRange ha)
  | noJump => exact hs.continueAt (hs.pc_add hpc (w := 3) (by decide))
  | adjust _ hr =>
    exact { hs with pcRange := hs.pc_add hpc (w := 2) (by decide), rbRange := hr }
  | halt => exact { hs with }

/-! ### How a step ends -/

/-- A Running engine with no fault recorded is sound where its values are and its signal agrees. -/
theorem State.ValuesInv.inv_of_running {t : State} (hv : t.ValuesInv) (hrs : t.rs = .running) (hfc : t.fc = 0)
    (hfi : t.fi = 0) (hsig : t.SignalAgrees) : t.Inv :=
  { hv with
    fcZero := by simp [hrs, hfc]
    fcCode := .inl hfc
    fiZero := fun _ => hfi
    atInput := fun h => by simp [hrs] at h
    atHalt := fun h => by simp [hrs] at h
    signal := hsig }

theorem FaultCause.code_ne_zero (c : FaultCause) : c.code ≠ 0 := by
  cases c <;> decide

/-- Fault entry leaves a sound engine where the values were. -/
theorem State.ValuesInv.inv_faultEntry {s : State} (hs : s.ValuesInv) (r : Raise) : (s.faultEntry r).Inv :=
  { hs with
    fcZero := by simp [r.cause.code_ne_zero]
    fcCode := .inr ⟨r.cause, rfl⟩
    fiZero := fun h => absurd rfl h
    atInput := fun h => by simp at h
    atHalt := fun h => by simp at h
    signal := ⟨rfl, rfl, rfl⟩ }

/-- An IN that suspends with no fault recorded leaves a sound engine, which awaits input at that IN. -/
theorem State.ValuesInv.inv_suspendForInput {s : State} (hs : s.ValuesInv) (hfc : s.fc = 0) (hfi : s.fi = 0) {m : Mode}
    (hi : s.AtInstr (.inp m)) : s.suspendForInput.Inv :=
  { hs with
    fcZero := by simp [hfc]
    fcCode := .inl hfc
    fiZero := fun _ => hfi
    atInput := fun _ => ⟨m, hi, hi.inp_ne_immediate⟩
    atHalt := fun h => by simp at h
    signal := rfl }

/-- A HLT with no fault recorded leaves a sound engine, halted at that HLT. -/
theorem State.ValuesInv.inv_halt {s : State} (hs : s.ValuesInv) (hfc : s.fc = 0) (hfi : s.fi = 0) (hi : s.AtInstr .hlt) :
    s.halt.Inv :=
  { hs with
    fcZero := by simp [hfc]
    fcCode := .inl hfc
    fiZero := fun _ => hfi
    atInput := fun h => by simp at h
    atHalt := fun _ => hi
    signal := rfl }

/-- Repeating a signal that agrees keeps the invariant. -/
theorem State.Inv.returnSignal {s : State} (hs : s.Inv) {g : Signal} (hg : (s.returnSignal g).SignalAgrees) :
    (s.returnSignal g).Inv := { hs with signal := hg }

/-- Executing the instruction at `pc` in a Running engine with no fault recorded gives a sound engine. -/
theorem ExecEffect.inv {i : Instr} {s t : State} (he : ExecEffect i s t) (hs : s.ValuesInv) (hrs : s.rs = .running)
    (hfc : s.fc = 0) (hfi : s.fi = 0) (hi : s.AtInstr i) : t.Inv := by
  have ht := he.valuesInv hs ⟨hi.1, hi.2.1⟩
  cases he with
  | fault r => exact hs.inv_faultEntry r
  | store | input | jump | noJump | adjust => exact ht.inv_of_running hrs hfc hfi hrs
  | output => exact ht.inv_of_running hrs hfc hfi ⟨hrs, by simp⟩
  | suspend => exact hs.inv_suspendForInput hfc hfi hi
  | halt => exact hs.inv_halt hfc hfi hi

/-- Settles O42: a terminal engine repeats its signal; any other has no fault recorded, and ends the step by a fault or by
the effect of the instruction at `pc`. -/
theorem invariantKeptByEveryStep : Obligations.InvariantKeptByEveryStep := by
  intro s t hs h
  cases step_effect h with
  | halted hrs ht => exact ht ▸ hs.returnSignal hrs
  | faulted hrs ht => exact ht ▸ hs.returnSignal ⟨hrs, rfl, rfl⟩
  | fetchFault r _ _ ht => exact ht ▸ State.ValuesInv.inv_faultEntry (s := s.enterActivation) { hs.values with } r
  | exec i hrs hi _ he =>
    have hnf : s.rs ≠ .faulted := by rcases hrs with hrs | hrs <;> simp [hrs]
    exact he.inv { hs.values with } rfl (hs.fcZero.mpr hnf) (hs.fiZero hnf) hi

/-! ### Construction and pushes -/

/-- What construction gives, where it is not refused, and from what arguments. -/
theorem construct_next {cap : Nat} {program inputs : List Int} {t : State} :
    construct cap program inputs = .next t ↔
      1 ≤ cap ∧ cap ≤ Config.memCapMax ∧ program.length ≤ cap ∧ AllInt64 program ∧ AllInt64 inputs ∧
        t = { State.reset with mem := Memory.writeAll [] 0 program, inq := inputs, memCap := cap } := by
  unfold construct
  split
  · simp; omega
  · split
    · simp; omega
    · split
      · next h1 h2 h3 =>
        have hcap : 1 ≤ cap ∧ cap ≤ Config.memCapMax := by omega
        exact ⟨fun h => ⟨hcap.1, hcap.2, not_lt.mp h2, h3.1, h3.2, (Host.Outcome.next.inj h).symm⟩,
          fun ⟨_, _, _, _, _, ht⟩ => congrArg _ ht.symm⟩
      · next h3 => exact ⟨nofun, fun ⟨_, _, _, hp, hin, _⟩ => absurd ⟨hp, hin⟩ h3⟩

/-- What a push gives, where it is not refused. -/
theorem pushInput_next {s t : State} {v : Int} :
    pushInput v s = .next t ↔ s.act ≠ .looping ∧ InInt64 v ∧ t = { s with inq := s.inq ++ [v] } := by
  unfold pushInput State.between
  simp only [decide_eq_true_eq]
  split
  · next hb =>
    split
    · next hv => exact ⟨fun h => ⟨hb, hv, (Host.Outcome.next.inj h).symm⟩, fun ⟨_, _, ht⟩ => congrArg _ ht.symm⟩
    · next hv => exact ⟨nofun, fun ⟨_, hv', _⟩ => absurd hv' hv⟩
  · next hb => exact ⟨nofun, fun ⟨hb', _⟩ => absurd hb' hb⟩

theorem zero_inInt64 : InInt64 0 := by decide

/-- Settles O44: the cells of the new engine are those of the program. -/
theorem invariantHoldsAfterConstruction : Obligations.InvariantHoldsAfterConstruction := by
  intro cap program inputs t h
  obtain ⟨h1, hmax, hlen, hprog, hin, rfl⟩ := construct_next.mp h
  have hcell : ∀ e ∈ Memory.writeAll [] 0 program, e.2 ∈ program ∧ e.1 < cap := by
    intro e he
    obtain ⟨hv, -, ha⟩ | he := Memory.mem_writeAll he
    · exact ⟨hv, by omega⟩
    · exact absurd he List.not_mem_nil
  have hv : State.ValuesInv { State.reset with mem := Memory.writeAll [] 0 program, inq := inputs, memCap := cap } :=
    { cap := ⟨h1, hmax⟩
      memWf := Memory.writeAll_wf State.reset_mem_wf 0 program
      memWithin := fun e he => (hcell e he).2
      memRange := fun e he => hprog _ (hcell e he).1
      pcRange := zero_inInt64
      rbRange := zero_inInt64
      inqRange := hin
      outlogRange := List.forall_mem_nil _ }
  exact hv.inv_of_running rfl rfl rfl ⟨rfl, rfl⟩

/-- Settles O43: reset is construction with the empty program and no inputs, at a capacity within the bounds of R1. -/
theorem invariantHoldsAtReset : Obligations.InvariantHoldsAtReset :=
  invariantHoldsAfterConstruction resetMemCap [] [] State.reset
    (construct_next.mpr ⟨by decide, le_rfl, Nat.zero_le _, by decide, by decide, rfl⟩)

/-- Settles O60: a push changes the queue only, by a value in range. -/
theorem invariantKeptByPush : Obligations.InvariantKeptByPush := by
  intro s t v hs h
  obtain ⟨-, hv, rfl⟩ := pushInput_next.mp h
  exact { hs with inqRange := List.forall_mem_append.mpr ⟨hs.inqRange, List.forall_mem_singleton.mpr hv⟩ }

/-- Settles O45: construction gives the invariant, and steps and pushes keep it. -/
theorem everyReachableStateIsSound : Obligations.EveryReachableStateIsSound := by
  intro s h
  induction h with
  | construct h => exact invariantHoldsAfterConstruction _ _ _ _ h
  | step _ h ih => exact invariantKeptByEveryStep _ _ ih h
  | push _ h ih => exact invariantKeptByPush _ _ _ ih h

end Sys2Proof.Machine
end

section
/-!
SUPPORT. Memory reads and operand resolution (20_memory.md R43, 40_engine.md R86, R87), as equations in terms of cells, and
what a read and a fetch give after a write.
-/

namespace Sys2Proof.Machine

/-! ### Operands in terms of cells -/

/-- `MemRead` with its two raise lines (R43). -/
theorem memRead_eq (s : State) (a : Int) :
    memRead s a =
      if a < 0 then .error ⟨.addressUnderflow, a⟩
      else if (s.memCap : Int) ≤ a then .error ⟨.capacityExceeded, a⟩
      else .ok (s.mem.read a.toNat) := by
  unfold memRead checkAddr
  split_ifs <;> rfl

/-- Settles O10: the operand cell is read first; an Immediate operand is the value, and else a second cell is read. -/
theorem readParamByMode : Obligations.ReadParamByMode := by
  intro s k m
  unfold readParam
  rw [memRead_eq s (s.pc + k)]
  by_cases h0 : s.pc + k < 0
  · simp only [h0, if_true]
  by_cases hcap : (s.memCap : Int) ≤ s.pc + k
  · simp only [h0, hcap, if_false, if_true]
  simp only [h0, hcap, if_false]
  cases m with
  | position => exact memRead_eq ..
  | immediate => rfl
  | relative => exact memRead_eq ..

/-- Settles O11: the operand cell is read first, and the address it gives is checked. -/
theorem writeAddrByMode : Obligations.WriteAddrByMode := by
  intro s k m
  unfold writeAddr
  rw [memRead_eq s (s.pc + k)]
  by_cases h0 : s.pc + k < 0
  · simp only [h0, if_true]
  by_cases hcap : (s.memCap : Int) ≤ s.pc + k
  · simp only [h0, hcap, if_false, if_true]
  simp only [h0, hcap, if_false]
  cases m <;> rfl

/-! ### Reads and fetches after a write -/

/-- Settles O9: a write changes no bound, and the cells read as after `Memory.write`. -/
theorem memReadGivesLastWrite : Obligations.MemReadGivesLastWrite := by
  intro s t a b v h
  obtain ⟨h0, hcap, rfl⟩ := memWrite_ok.mp h
  split
  · next hb =>
    subst hb
    exact memRead_ok.mpr ⟨h0, hcap, (Memory.read_write_self ..).symm⟩
  · next hb =>
    rw [memRead_eq, memRead_eq]
    by_cases hneg : b < 0
    · rw [if_pos hneg, if_pos hneg]
    · have hcell := Memory.read_write_of_ne s.mem (show b.toNat ≠ a.toNat by omega) v
      rw [if_neg hneg, if_neg hneg, hcell]

/-- Settles O12: the read at the fetch gives the value stored, so the fetch is its decoding. -/
theorem storeIsSeenByNextFetch : Obligations.StoreIsSeenByNextFetch := by
  intro s t a v h
  have hread : memRead { t with pc := a } a = .ok v := by
    have := memReadGivesLastWrite s t a a v h
    rwa [if_pos rfl] at this
  rw [fetchDecode_of_memRead hread]
  cases decode v with
  | ok i => rfl
  | error e => cases e <;> rfl

end Sys2Proof.Machine
end

section
/-!
SUPPORT. Each instruction's meaning, from its operands (41_arithmetic.md to 46_halt.md): what it does when it completes
and where it faults. ADD, MUL, LT and EQ, and JT and JF, go through the rules of the shape they share.
-/

namespace Sys2Proof.Machine

/-! ### The storing shape -/

/-- A write to the destination and the advance of `pc` is what `StoredAndAdvanced` says. -/
theorem storedAndAdvanced_write (s : State) {d v w : Int} :
    StoredAndAdvanced s ({ s with mem := s.mem.write d.toNat v }.continueAt (s.pc + w)) d v w where
  cell := Memory.read_write_self ..
  otherCells _ hx := Memory.read_write_of_ne _ hx _
  pc := rfl
  rb := rfl
  rs := rfl
  fc := rfl
  fi := rfl
  inq := rfl
  outlog := rfl
  memCap := rfl
  act := rfl

/-- Which computation the storing instructions make. -/
def storedFunction : Instr → Int → Int → Except Raise Int
  | .add _ _ _ => addExact
  | .mul _ _ _ => mulExact
  | .lt _ _ _ => lessThan
  | .eq _ _ _ => equals
  | .inp _ | .out _ | .jt _ _ | .jf _ _ | .arb _ | .hlt => fun _ _ => .ok 0

section
variable {f : Int → Int → Except Raise Int} {s : State} {m1 m2 m3 : Mode} {a b v d : Int} {r : Raise}

theorem storeResult_completes (ha : readParam s 1 m1 = .ok a) (hb : readParam s 2 m2 = .ok b) (hv : f a b = .ok v)
    (hd : writeAddr s 3 m3 = .ok d) :
    ∃ t, storeResult f m1 m2 m3 s = .next t ∧ StoredAndAdvanced s t d v 4 :=
  ⟨_, storeResult_of_ok ha hb hv hd, storedAndAdvanced_write s⟩

theorem storeResult_faults_first (h : readParam s 1 m1 = .error r) :
    storeResult f m1 m2 m3 s = .next (s.faultEntry r) := by
  simp only [storeResult, h, orFault_error]

theorem storeResult_faults_second (ha : readParam s 1 m1 = .ok a) (h : readParam s 2 m2 = .error r) :
    storeResult f m1 m2 m3 s = .next (s.faultEntry r) := by
  simp only [storeResult, ha, orFault_ok, h, orFault_error]

theorem storeResult_faults_result (ha : readParam s 1 m1 = .ok a) (hb : readParam s 2 m2 = .ok b)
    (h : f a b = .error r) : storeResult f m1 m2 m3 s = .next (s.faultEntry r) := by
  simp only [storeResult, ha, hb, orFault_ok, h, orFault_error]

theorem storeResult_faults_target (ha : readParam s 1 m1 = .ok a) (hb : readParam s 2 m2 = .ok b)
    (hv : f a b = .ok v) (h : writeAddr s 3 m3 = .error r) :
    storeResult f m1 m2 m3 s = .next (s.faultEntry r) := by
  simp only [storeResult, ha, hb, hv, orFault_ok, h, orFault_error]

theorem jumpIf_faults_first {p : Int → Bool} (h : readParam s 1 m1 = .error r) :
    jumpIf p m1 m2 s = .next (s.faultEntry r) := by
  simp only [jumpIf, h, orFault_error]

theorem jumpIf_faults_second {p : Int → Bool} (ha : readParam s 1 m1 = .ok a) (h : readParam s 2 m2 = .error r) :
    jumpIf p m1 m2 s = .next (s.faultEntry r) := by
  simp only [jumpIf, ha, orFault_ok, h, orFault_error]

end

/-- An answer that is a fault taken. -/
theorem exists_faultTaken {s : State} {r : Raise} {x : Answer} (h : x = .next (s.faultEntry r)) :
    ∃ t, x = .next t ∧ FaultTaken s t r.cause r.info :=
  ⟨_, h, faultTaken_faultEntry s r⟩

/-- An answer that is the fault of a result outside `Int64`, with its code. -/
theorem exists_overflow {s : State} {n : Int} {x : Answer}
    (h : x = .next (s.faultEntry ⟨.arithmeticOverflow, n⟩)) :
    ∃ t, x = .next t ∧ FaultTaken s t .arithmeticOverflow n ∧ t.fc = 7 :=
  ⟨_, h, faultTaken_faultEntry s ⟨.arithmeticOverflow, n⟩, rfl⟩

/-- The four storing instructions share the shape, each with its own computation. -/
theorem exec_eq_storeResult {i : Instr} {m1 m2 m3 : Mode}
    (hi : i = .add m1 m2 m3 ∨ i = .mul m1 m2 m3 ∨ i = .lt m1 m2 m3 ∨ i = .eq m1 m2 m3) (s : State) :
    exec i s = storeResult (storedFunction i) m1 m2 m3 s := by
  rcases hi with rfl | rfl | rfl | rfl <;> rfl

/-! ### ADD, MUL, LT, EQ -/

/-- Settles O17. -/
theorem addStoresExactSum : Obligations.AddStoresExactSum := by
  intro s m1 m2 m3 a b d ha hb hr hd
  exact storeResult_completes ha hb (inRange_ok.mpr ⟨rfl, hr⟩) hd

/-- Settles O18. -/
theorem mulStoresExactProduct : Obligations.MulStoresExactProduct := by
  intro s m1 m2 m3 a b d ha hb hr hd
  exact storeResult_completes ha hb (inRange_ok.mpr ⟨rfl, hr⟩) hd

/-- Settles O19. -/
theorem ltStoresOneOrZero : Obligations.LtStoresOneOrZero := by
  intro s m1 m2 m3 a b d ha hb hd
  exact storeResult_completes ha hb rfl hd

/-- Settles O20: the word is that of opcode 8 with a destination that is not Immediate; the rest is the storing shape. -/
theorem eqStoresOneOrZero : Obligations.EqStoresOneOrZero := by
  intro s m1 m2 m3
  refine ⟨fun hm => ?word, rfl, fun r h => ?first, fun a r ha h => ?second, fun a b r ha hb h => ?target,
    fun a b d ha hb hd => ?completes⟩
  case word => exact decode_wordOf (i := .eq m1 m2 m3) rfl (decide_eq_true hm) 0
  case first => exact exists_faultTaken (storeResult_faults_first h)
  case second => exact exists_faultTaken (storeResult_faults_second ha h)
  case target => exact exists_faultTaken (storeResult_faults_target ha hb rfl h)
  case completes => exact storeResult_completes ha hb rfl hd

/-- Settles O28: the three share the storing shape, and their results are in range by hypothesis or always. -/
theorem storingInstructionsFaultInOrder : Obligations.StoringInstructionsFaultInOrder := by
  intro s i m1 m2 m3 hi
  have hexec : exec i s = storeResult (storedFunction i) m1 m2 m3 s :=
    exec_eq_storeResult (hi.imp_right (Or.imp_right .inl)) s
  rw [hexec]
  refine ⟨fun r h => ?_, fun a r ha h => ?_, fun a b r ha hb hadd hmul h => ?_⟩
  · exact exists_faultTaken (storeResult_faults_first h)
  · exact exists_faultTaken (storeResult_faults_second ha h)
  · have hresult : ∃ v, storedFunction i a b = .ok v := by
      rcases hi with rfl | rfl | rfl
      · exact ⟨_, inRange_ok.mpr ⟨rfl, hadd rfl⟩⟩
      · exact ⟨_, inRange_ok.mpr ⟨rfl, hmul rfl⟩⟩
      · exact ⟨_, rfl⟩
    obtain ⟨v, hv⟩ := hresult
    exact exists_faultTaken (storeResult_faults_target ha hb hv h)

/-! ### JT, JF -/

theorem jumpIf_completes (P : Int → Prop) [DecidablePred P] {m1 m2 : Mode} {s : State} {c a : Int}
    (hc : readParam s 1 m1 = .ok c) (ha : readParam s 2 m2 = .ok a) :
    ∃ t, jumpIf (fun c => decide (P c)) m1 m2 s = .next t ∧ SameButPc s t ∧ t.act = .looping ∧
      t.pc = if P c then a else s.pc + 3 :=
  ⟨_, jumpIf_of_ok hc ha, ⟨rfl, rfl, rfl, rfl, rfl, rfl, rfl, rfl⟩, rfl, if_congr decide_eq_true_iff rfl rfl⟩

/-- Settles O24. -/
theorem jtJumpsWhenNotZero : Obligations.JtJumpsWhenNotZero := by
  intro s m1 m2 c a hc ha
  exact jumpIf_completes (· ≠ 0) hc ha

/-- Settles O25: the word is that of opcode 6 with any mode as the unused one; the rest is the jump shape. -/
theorem jfJumpsWhenZero : Obligations.JfJumpsWhenZero := by
  intro s m1 m2
  refine ⟨fun c hc => ?word, rfl, fun r h => ?first, fun c r hc h => ?second, fun c a hc ha => ?completes⟩
  case word =>
    obtain ⟨m3, rfl⟩ := exists_toDigit_of_le_two hc
    exact decode_wordOf (i := .jf m1 m2) rfl rfl 0
  case first => exact exists_faultTaken (jumpIf_faults_first h)
  case second => exact exists_faultTaken (jumpIf_faults_second hc h)
  case completes => exact jumpIf_completes (· = 0) hc ha

/-! ### IN, OUT, ARB, HLT -/

/-- Settles O21: IN writes as a storing instruction does, in the state whose queue has lost its front. -/
theorem inStoresFrontOfQueue : Obligations.InStoresFrontOfQueue := by
  intro s m1 v d q hq hd
  exact ⟨_, execInp_of_ok hq hd, storedAndAdvanced_write { s with inq := q }⟩

theorem execInp_of_empty {m1 : Mode} {s : State} (hq : s.inq = []) : execInp m1 s = .next s.suspendForInput := by
  simp only [execInp, hq]

theorem execInp_faults {m1 : Mode} {s : State} {r : Raise} (hq : s.inq ≠ []) (h : writeAddr s 1 m1 = .error r) :
    execInp m1 s = .next (s.faultEntry r) := by
  obtain ⟨v, q, hq⟩ := List.exists_cons_of_ne_nil hq
  simp only [execInp, hq, h, orFault_error]

/-- Settles O22. -/
theorem inSuspendsOnEmptyQueue : Obligations.InSuspendsOnEmptyQueue := by
  intro s m1 hq
  exact execInp_of_empty hq

/-- Settles O23: the word is that of opcode 4 with any modes as the unused ones. -/
theorem outAppendsAndReturns : Obligations.OutAppendsAndReturns := by
  intro s m1
  refine ⟨fun b c hb hc => ?word, rfl, fun r h => ?faults, fun v hv => ?completes⟩
  case word =>
    obtain ⟨m2, rfl⟩ := exists_toDigit_of_le_two hb
    obtain ⟨m3, rfl⟩ := exists_toDigit_of_le_two hc
    exact decode_wordOf (i := .out m1) rfl rfl 0
  case faults => exact exists_faultTaken (by simp only [exec, execOut, h, orFault_error])
  case completes => simp only [exec, execOut, hv, orFault_ok, State.returnSignal]

/-- When ARB completes, and with what. -/
theorem execArb_of_ok {m1 : Mode} {s : State} {a : Int} (ha : readParam s 1 m1 = .ok a) (hr : InInt64 (s.rb + a)) :
    execArb m1 s = .next ({ s with rb := s.rb + a }.continueAt (s.pc + 2)) := by
  simp only [execArb, ha, orFault_ok, addExact, inRange_ok.mpr ⟨rfl, hr⟩]

theorem execArb_faults {m1 : Mode} {s : State} {r : Raise} (h : readParam s 1 m1 = .error r) :
    execArb m1 s = .next (s.faultEntry r) := by
  simp only [execArb, h, orFault_error]

theorem execArb_overflows {m1 : Mode} {s : State} {a : Int} (ha : readParam s 1 m1 = .ok a)
    (hr : ¬ InInt64 (s.rb + a)) : execArb m1 s = .next (s.faultEntry ⟨.arithmeticOverflow, s.rb + a⟩) := by
  simp only [execArb, ha, orFault_ok, addExact, inRange_error.mpr ⟨hr, rfl⟩, orFault_error]

/-- Settles O26. -/
theorem arbAddsToRelativeBase : Obligations.ArbAddsToRelativeBase := by
  intro s m1 a ha hr
  exact execArb_of_ok ha hr

/-- Settles O59: in each mode the parameter reads as the cell the statement names. -/
theorem arbCompletesInEveryMode : Obligations.ArbCompletesInEveryMode := by
  rintro s o h0 hcap rfl
  have hop : memRead s (s.pc + 1) = .ok (s.mem.read (s.pc + 1).toNat) := memRead_ok.mpr ⟨h0, hcap, rfl⟩
  refine ⟨fun hr => ?immediate, fun ho hocap hr => ?position, fun ho hocap hr => ?relative⟩
  case immediate => exact execArb_of_ok (readParam_ok.mpr ⟨_, hop, .inl ⟨rfl, rfl⟩⟩) hr
  case position =>
    exact execArb_of_ok (readParam_ok.mpr ⟨_, hop, .inr (.inl ⟨rfl, memRead_ok.mpr ⟨ho, hocap, rfl⟩⟩)⟩) hr
  case relative =>
    exact execArb_of_ok (readParam_ok.mpr ⟨_, hop, .inr (.inr ⟨rfl, memRead_ok.mpr ⟨ho, hocap, rfl⟩⟩)⟩) hr

/-- Settles O27. -/
theorem hltHalts : Obligations.HltHalts := by
  intro s
  rfl

/-- Settles O29: the range check precedes the destination. -/
theorem overflowFaults : Obligations.OverflowFaults := by
  refine ⟨fun s m1 m2 m3 a b ha hb hr => ?add, fun s m1 m2 m3 a b ha hb hr => ?mul, fun s m1 a ha hr => ?arb⟩
  case add => exact exists_overflow (storeResult_faults_result ha hb (inRange_error.mpr ⟨hr, rfl⟩))
  case mul => exact exists_overflow (storeResult_faults_result ha hb (inRange_error.mpr ⟨hr, rfl⟩))
  case arb => exact exists_overflow (execArb_overflows ha hr)

/-- Settles O30. -/
theorem inArbJtFaults : Obligations.InArbJtFaults := by
  refine ⟨fun s m1 r hq h => ?inp, fun s m1 r h => ?arb, fun s m1 m2 r h => ?jt⟩
  case inp => exact exists_faultTaken (execInp_faults hq h)
  case arb => exact exists_faultTaken (execArb_faults h)
  case jt =>
    rcases h with h | ⟨c, hc, h⟩
    · exact exists_faultTaken (jumpIf_faults_first h)
    · exact exists_faultTaken (jumpIf_faults_second hc h)

/-! ### Frames -/

/-- A storing instruction takes a fault, or writes the one cell `WriteAddr` gives and advances. -/
theorem exec_storing_cases {i : Instr} {m1 m2 m3 : Mode} {s t : State}
    (hi : i = .add m1 m2 m3 ∨ i = .mul m1 m2 m3 ∨ i = .lt m1 m2 m3 ∨ i = .eq m1 m2 m3) (h : exec i s = .next t) :
    (∃ r, t = s.faultEntry r) ∨
    (∃ d v, writeAddr s 3 m3 = .ok d ∧ t = { s with mem := s.mem.write d.toNat v }.continueAt (s.pc + 4)) := by
  rw [exec_eq_storeResult hi] at h
  obtain hr | ⟨-, -, v, d, -, -, -, hd, ht⟩ := storeResult_cases h
  · exact .inl hr
  · exact .inr ⟨d, v, hd, ht⟩

/-- After a write to the destination `d₀`, every cell but the one `WriteAddr` gives reads as before, and `WriteAddr` does
give one. -/
theorem cells_of_write {s : State} {k d₀ v : Int} {m : Mode} (hd₀ : writeAddr s k m = .ok d₀) :
    (∀ d, writeAddr s k m = .ok d → ∀ x : Nat, (x : Int) ≠ d → (s.mem.write d₀.toNat v).read x = s.mem.read x) ∧
    (∀ r, writeAddr s k m = .error r → ∀ x : Nat, (s.mem.write d₀.toNat v).read x = s.mem.read x) := by
  refine ⟨fun d hd x hx => ?_, fun r hr => ?_⟩
  · obtain rfl : d₀ = d := Except.ok.inj (hd₀.symm.trans hd)
    exact Memory.read_write_toNat_of_ne s.mem (writeAddr_bounds hd₀).1 hx v
  · exact absurd (hd₀.symm.trans hr) nofun

/-- Settles O31. -/
theorem storingInstructionsFrame : Obligations.StoringInstructionsFrame := by
  intro s t i m1 m2 m3 hi h
  obtain ⟨r, rfl⟩ | ⟨d, v, hd, rfl⟩ := exec_storing_cases hi h
  · exact ⟨rfl, rfl, rfl, rfl, .inl rfl, fun _ _ _ _ => rfl, fun _ _ _ => rfl⟩
  · exact ⟨rfl, rfl, rfl, rfl, .inr ⟨rfl, rfl, rfl⟩, cells_of_write hd⟩

/-- Settles O32. -/
theorem inFrame : Obligations.InFrame := by
  intro s t m1 h
  obtain ⟨hq, rfl⟩ | ⟨r, rfl⟩ | ⟨v, q, d, hq, hd, rfl⟩ := execInp_cases h
  · exact ⟨rfl, rfl, rfl, .inl rfl, .inr ⟨rfl, rfl, .inr ⟨hq, rfl⟩⟩, fun _ _ _ _ => rfl, fun _ _ _ => rfl, fun _ _ => rfl⟩
  · exact ⟨rfl, rfl, rfl, .inl rfl, .inl rfl, fun _ _ _ _ => rfl, fun _ _ _ => rfl, fun _ _ => rfl⟩
  · obtain ⟨hcells, hnone⟩ := cells_of_write (v := v) hd
    have hne : s.inq ≠ [] := hq ▸ List.cons_ne_nil v q
    exact ⟨rfl, rfl, rfl, .inr ⟨v, hq⟩, .inr ⟨rfl, rfl, .inl rfl⟩, hcells, hnone, fun h0 => absurd h0 hne⟩

/-- Settles O33: the effects that write a cell are those of storing instructions only. -/
theorem nonStoringInstructionsFrame : Obligations.NonStoringInstructionsFrame := by
  intro s t i hi h
  cases exec_effect h with
  | fault r => exact ⟨rfl, rfl, rfl, fun _ => rfl, fun _ => rfl, .inl rfl⟩
  | store hs => rcases hs with rfl | rfl | rfl | rfl <;> cases hi
  | input | suspend => cases hi
  | output => exact ⟨rfl, rfl, rfl, fun _ => rfl, fun hne => absurd rfl (hne _), .inr ⟨rfl, rfl, .inl rfl⟩⟩
  | jump | noJump => exact ⟨rfl, rfl, rfl, fun _ => rfl, fun _ => rfl, .inr ⟨rfl, rfl, .inl rfl⟩⟩
  | adjust => exact ⟨rfl, rfl, rfl, fun hne => absurd rfl (hne _), fun _ => rfl, .inr ⟨rfl, rfl, .inl rfl⟩⟩
  | halt => exact ⟨rfl, rfl, rfl, fun _ => rfl, fun _ => rfl, .inr ⟨rfl, rfl, .inr ⟨rfl, rfl⟩⟩⟩

end Sys2Proof.Machine
end

section
/-!
SUPPORT. Rules of the whole machine: every step answers a next state, and what a step can change, each read off the one
list of everything a step can do (`step_effect`).
-/

namespace Sys2Proof.Machine

/-! ### There is no stuck state -/

theorem storeResult_answers (f : Int → Int → Except Raise Int) (m1 m2 m3 : Mode) (s : State) :
    ∃ t, storeResult f m1 m2 m3 s = .next t :=
  orFault_answers fun _ _ => orFault_answers fun _ _ => orFault_answers fun _ _ => orFault_answers fun _ _ =>
    orFault_answers fun _ _ => ⟨_, rfl⟩

theorem jumpIf_answers (p : Int → Bool) (m1 m2 : Mode) (s : State) : ∃ t, jumpIf p m1 m2 s = .next t :=
  orFault_answers fun _ _ => orFault_answers fun _ _ => ⟨_, rfl⟩

theorem execInp_answers (m1 : Mode) (s : State) : ∃ t, execInp m1 s = .next t := by
  cases hq : s.inq with
  | nil => exact ⟨_, execInp_of_empty hq⟩
  | cons v q =>
    simp only [execInp, hq]
    exact orFault_answers fun _ _ => orFault_answers fun _ _ => ⟨_, rfl⟩

theorem exec_answers (i : Instr) (s : State) : ∃ t, exec i s = .next t := by
  cases i with
  | add | mul | lt | eq => exact storeResult_answers ..
  | jt | jf => exact jumpIf_answers ..
  | inp => exact execInp_answers ..
  | out => exact orFault_answers fun _ _ => ⟨_, rfl⟩
  | arb => exact orFault_answers fun _ _ => orFault_answers fun _ _ => ⟨_, rfl⟩
  | hlt => exact ⟨_, rfl⟩

/-- Settles O34: every instruction answers a next state, and so does every fault. -/
theorem everyStepAnswersNext : Obligations.EveryStepAnswersNext := by
  intro s
  cases hs : s.rs with
  | halted => exact ⟨_, step_of_halted hs⟩
  | faulted => exact ⟨_, step_of_faulted hs⟩
  | running => rw [step_of_active (.inl hs)]; exact orFault_answers fun i _ => exec_answers i _
  | awaitingInput => rw [step_of_active (.inr hs)]; exact orFault_answers fun i _ => exec_answers i _

/-! ### The program counter, the log and the queue -/

/-- Settles O36: `pc` stays, or moves by the width, in every effect but a jump. -/
theorem onlyJumpsLeaveTheProgramOrder : Obligations.OnlyJumpsLeaveTheProgramOrder := by
  intro s t h
  cases step_effect h with
  | halted _ ht | faulted _ ht | fetchFault _ _ _ ht => exact .inl (ht ▸ rfl)
  | exec i _ hi _ he =>
    cases he with
    | fault | suspend | halt => exact .inl rfl
    | store | input | output | adjust => exact .inr (.inl ⟨_, hi, rfl⟩)
    | jump hj ha =>
      have hjump : isJump i = true := by rcases hj with rfl | rfl <;> rfl
      exact .inr (.inr ⟨i, _, hi, hjump, rfl, _, ha, _, hj⟩)
    | noJump hj =>
      have hwidth : i.width = 3 := by rcases hj with rfl | rfl <;> rfl
      exact .inr (.inl ⟨i, hi, by rw [hwidth]; rfl⟩)

/-- Settles O37: only OUT has an effect on the log, and only its signal is an `Output`. -/
theorem outputLogGrowsByItsSignal : Obligations.OutputLogGrowsByItsSignal := by
  intro s t h
  cases step_effect h with
  | halted _ ht | faulted _ ht | fetchFault _ _ _ ht => subst ht; exact .inl ⟨rfl, nofun⟩
  | exec i _ hi _ he =>
    cases he with
    | fault | store | input | suspend | jump | noJump | adjust | halt => exact .inl ⟨rfl, nofun⟩
    | output => exact .inr ⟨_, _, hi, rfl, rfl⟩

/-- Settles O38: only a completed IN has an effect on the queue. -/
theorem onlyInTakesFromTheQueue : Obligations.OnlyInTakesFromTheQueue := by
  intro s t h
  cases step_effect h with
  | halted _ ht | faulted _ ht | fetchFault _ _ _ ht => exact .inl (ht ▸ rfl)
  | exec i _ hi _ he =>
    cases he with
    | fault | store | suspend | output | jump | noJump | adjust | halt => exact .inl rfl
    | input hq => exact .inr ⟨_, _, hi, hq, rfl⟩

/-! ### Memory -/

theorem ExecEffect.memCap_eq {i : Instr} {s t : State} (h : ExecEffect i s t) : t.memCap = s.memCap := by
  cases h <;> rfl

/-- A step leaves all of memory alone, or is the execution of the instruction at `pc`. -/
theorem step_mem_cases {s t : State} (h : step s = .next t) :
    t.mem = s.mem ∨ ((s.rs = .running ∨ s.rs = .awaitingInput) ∧
      ∃ i, s.AtInstr i ∧ exec i s.enterActivation = .next t) := by
  cases step_effect h with
  | halted _ ht | faulted _ ht | fetchFault _ _ _ ht => exact .inl (ht ▸ rfl)
  | exec i hs hi h _ => exact .inr ⟨hs, i, hi, h⟩

theorem step_memCap_eq {s t : State} (h : step s = .next t) : t.memCap = s.memCap := by
  cases step_effect h with
  | halted _ ht | faulted _ ht | fetchFault _ _ _ ht => exact ht ▸ rfl
  | exec _ _ _ _ he => exact he.memCap_eq

/-- Where an instruction that stores nothing stands at `pc`, where the engine is terminal, and where the step faults, all
of memory stays. -/
theorem step_mem_eq {s t : State} (h : step s = .next t)
    (hno : (∀ i : Instr, s.AtInstr i → storesCell i = false) ∨ s.rs = .halted ∨ s.rs = .faulted ∨ t.rs = .faulted) :
    t.mem = s.mem := by
  obtain hmem | ⟨hs, i, hi, h⟩ := step_mem_cases h
  · exact hmem
  rcases hno with hno | hno | hno | hno
  · obtain ⟨hmem, -⟩ := nonStoringInstructionsFrame _ t i (hno i hi) h
    exact hmem
  · simp [hno] at hs
  · simp [hno] at hs
  · obtain ⟨r, rfl⟩ := (exec_effect h).eq_faultEntry rfl hno
    rfl

/-- Settles O39: the frames of the storing instructions and of IN, at the instruction that stands at `pc`. -/
theorem stepChangesAtMostOneCell : Obligations.StepChangesAtMostOneCell := by
  intro s t h
  refine ⟨step_memCap_eq h, fun i m1 m2 m3 hi hst => ?storing, fun m1 hi => ?inp, fun hno x => ?others⟩
  case storing =>
    obtain hmem | ⟨-, j, hj, h⟩ := step_mem_cases h
    · rw [hmem]; exact ⟨fun _ _ _ _ => rfl, fun _ _ _ => rfl⟩
    · obtain rfl := hi.unique hj
      obtain ⟨-, -, -, -, -, hcells, hnone⟩ := storingInstructionsFrame _ t i m1 m2 m3 hst h
      exact ⟨hcells, hnone⟩
  case inp =>
    obtain hmem | ⟨-, j, hj, h⟩ := step_mem_cases h
    · rw [hmem]; exact ⟨fun _ _ _ _ => rfl, fun _ _ _ => rfl, fun _ _ => rfl⟩
    · obtain rfl := hi.unique hj
      obtain ⟨-, -, -, -, -, hcells⟩ := inFrame _ t m1 h
      exact hcells
  case others => rw [step_mem_eq h hno]

/-! ### Faults and the end of an activation -/

/-- Settles O40: a step ends Faulted by a fault of the fetch or by one of the instruction. -/
theorem faultsArePrecise : Obligations.FaultsArePrecise := by
  intro s t h hs ht
  cases step_effect h with
  | halted hrs hst => simp [hst, hrs] at ht
  | faulted hrs _ => exact absurd hrs hs
  | fetchFault r _ _ hst => exact ⟨_, _, hst ▸ faultTaken_enterActivation s r⟩
  | exec i _ _ _ he =>
    obtain ⟨r, rfl⟩ := he.eq_faultEntry rfl ht
    exact ⟨_, _, faultTaken_enterActivation s r⟩

/-- Settles O41: every other effect ends in `continue`. -/
theorem activationEndsOnlyAtSuspensionPoints : Obligations.ActivationEndsOnlyAtSuspensionPoints := by
  intro s t hs h
  cases step_effect h with
  | halted hrs _ | faulted hrs _ => simp [hrs] at hs
  | fetchFault r _ _ ht => exact .inr (.inr (.inr (.inr ⟨_, _, ht ▸ faultTaken_enterActivation s r⟩)))
  | exec i _ hi _ he =>
    cases he with
    | store | input | jump | noJump | adjust => exact .inl rfl
    | output => exact .inr (.inl ⟨_, _, hi, rfl⟩)
    | suspend hq => exact .inr (.inr (.inl ⟨_, hi, hq, rfl⟩))
    | halt => exact .inr (.inr (.inr (.inl ⟨hi, rfl⟩)))
    | fault r => exact .inr (.inr (.inr (.inr ⟨_, _, faultTaken_enterActivation s r⟩)))

end Sys2Proof.Machine
end

section
/-!
SUPPORT. Whole activations (40_engine.md sections 3 and 4): what `RunStep` gives after a step that returns, its executable
form, the activations of suspended and terminal engines, and one that never returns.
-/

namespace Sys2Proof.Machine

/-! ### One activation -/

/-- An activation whose first pass returns is that pass. -/
theorem runStep_iff_of_returned {s u t : State} {g g₀ : Signal} (hu : step s = .next u) (hg : u.act = .returned g₀) :
    RunStep s g t ↔ g = g₀ ∧ t = u := by
  constructor
  · rintro (⟨ht, hact⟩ | ⟨ht, hact, -⟩)
    · obtain rfl : u = t := Host.Outcome.next.inj (hu.symm.trans ht)
      exact ⟨Activation.returned.inj (hact.symm.trans hg), rfl⟩
    · obtain rfl := Host.Outcome.next.inj (hu.symm.trans ht)
      exact absurd (hact.symm.trans hg) nofun
  · rintro ⟨rfl, rfl⟩
    exact .stop hu hg

/-- An activation whose first pass continues is the activation from there. -/
theorem runStep_iff_of_looping {s u t : State} {g : Signal} (hu : step s = .next u) (hl : u.act = .looping) :
    RunStep s g t ↔ RunStep u g t := by
  constructor
  · rintro (⟨ht, hact⟩ | ⟨ht, -, h⟩)
    · obtain rfl : u = t := Host.Outcome.next.inj (hu.symm.trans ht)
      exact absurd (hact.symm.trans hl) nofun
    · obtain rfl := Host.Outcome.next.inj (hu.symm.trans ht)
      exact h
  · exact .loop hu hl

/-- An activation has one outcome at most. -/
theorem RunStep.unique {s t t' : State} {g g' : Signal} (h : RunStep s g t) (h' : RunStep s g' t') : g' = g ∧ t' = t := by
  induction h with
  | stop hu hg => exact (runStep_iff_of_returned hu hg).mp h'
  | loop hu hl _ ih => exact ih ((runStep_iff_of_looping hu hl).mp h')

/-- What holds at the start of an activation and is kept by every step holds where the activation returns. -/
theorem RunStep.preserves {P : State → Prop} (hP : ∀ s t, P s → step s = .next t → P t) {s t : State} {g : Signal}
    (h : RunStep s g t) (hs : P s) : P t := by
  induction h with
  | stop hu _ => exact hP _ _ hs hu
  | loop hu _ _ ih => exact ih (hP _ _ hs hu)

/-- An activation ends in a step that returns its signal. -/
theorem RunStep.last_step {s t : State} {g : Signal} (h : RunStep s g t) : ∃ u, step u = .next t ∧ t.act = .returned g := by
  induction h with
  | stop hu hg => exact ⟨_, hu, hg⟩
  | loop _ _ _ ih => exact ih

/-- An activation does not return where every step keeps some property and continues. -/
theorem not_runStep_of_forever {P : State → Prop} (hP : ∀ s, P s → ∃ t, step s = .next t ∧ t.act = .looping ∧ P t)
    {s t : State} {g : Signal} (hs : P s) : ¬ RunStep s g t := by
  intro h
  induction h with
  | stop hu hg =>
    obtain ⟨u, hu', hl, -⟩ := hP _ hs
    obtain rfl := Host.Outcome.next.inj (hu.symm.trans hu')
    exact absurd (hg.symm.trans hl) nofun
  | loop hu _ _ ih =>
    obtain ⟨u, hu', -, hPu⟩ := hP _ hs
    obtain rfl := Host.Outcome.next.inj (hu.symm.trans hu')
    exact ih hPu

/-- Settles O48: each constructor of `RunStep` is one unit of fuel. -/
theorem fuelledRunIsTheActivation : Obligations.FuelledRunIsTheActivation := by
  intro s t g
  constructor
  · intro h
    induction h with
    | stop hu hg => exact ⟨1, by simp only [runStepFuel, hu, hg]⟩
    | loop hu hl _ ih =>
      obtain ⟨n, hn⟩ := ih
      exact ⟨n + 1, by simp only [runStepFuel, hu, hl, hn]⟩
  · rintro ⟨n, hn⟩
    induction n generalizing s with
    | zero => cases hn
    | succ n ih =>
      obtain ⟨u, hu⟩ := everyStepAnswersNext s
      simp only [runStepFuel, hu] at hn
      cases hact : u.act with
      | notStarted => simp [hact] at hn
      | looping => exact .loop hu hact (ih u (by simpa only [hact] using hn))
      | returned g' =>
        obtain ⟨rfl, rfl⟩ : g' = g ∧ u = t := by simpa [hact] using hn
        exact .stop hu hact

/-! ### Signals -/

/-- The steps that return `NeedInput` find the queue empty and leave it so. -/
theorem step_needInput_inq {s t : State} (h : step s = .next t) (hact : t.act = .returned .needInput) : t.inq = [] := by
  cases step_effect h with
  | halted _ ht | faulted _ ht | fetchFault _ _ _ ht => simp [ht] at hact
  | exec i _ _ _ he =>
    cases he with
    | suspend hq => exact hq
    | fault | store | input | output | jump | noJump | adjust | halt => simp at hact

/-- Settles O46: the engine left is sound, so the signal it returned agrees with it. -/
theorem activationReturnsAgreeingSignal : Obligations.ActivationReturnsAgreeingSignal := by
  intro s t g hs h
  have ht : t.Inv := h.preserves invariantKeptByEveryStep hs
  obtain ⟨u, hu, hact⟩ := h.last_step
  have hsig : t.SignalAgrees := ht.signal
  refine ⟨ht, hact, ?_⟩
  unfold State.SignalAgrees at hsig
  rw [hact] at hsig
  cases g with
  | halt => exact hsig
  | needInput => exact ⟨hsig, step_needInput_inq hu hact⟩
  | output v => exact hsig
  | fault c i => exact hsig

/-- A sound engine that awaits input returned `NeedInput` last (10_state.md R18). -/
theorem State.Inv.act_of_awaitingInput {s : State} (hs : s.Inv) (hrs : s.rs = .awaitingInput) :
    s.act = .returned .needInput := by
  have hsig := hs.signal
  unfold State.SignalAgrees at hsig
  split at hsig
  case h_4 hact => exact hact
  all_goals simp [hrs] at hsig

/-! ### Suspended and terminal engines -/

/-- Settles O49: the step executes the IN again, which suspends; `rs` and the signal are those that stood there. -/
theorem suspendedInputRetriesUnchanged : Obligations.SuspendedInputRetriesUnchanged := by
  intro s hs hrs hq
  obtain ⟨m, hi, -⟩ := hs.atInput hrs
  have hact := hs.act_of_awaitingInput hrs
  have hsame : s.enterActivation.suspendForInput = s := by
    obtain ⟨⟩ := s
    cases hrs
    cases hact
    rfl
  have hstep : step s = .next s := by
    rw [step_of_atInstr (.inr hrs) hi]
    exact (inSuspendsOnEmptyQueue s.enterActivation m hq).trans (congrArg _ hsame)
  exact .stop hstep hact

/-- Settles O50: the push puts `v` alone in the queue, and the first step executes the IN that stands at `pc`. -/
theorem pushThenResumeCompletesInput : Obligations.PushThenResumeCompletesInput := by
  intro s v hs hrs hq hv
  obtain ⟨m, hi, -⟩ := hs.atInput hrs
  have hbetween : s.act ≠ .looping := by simp [hs.act_of_awaitingInput hrs]
  have hpush := pushInput_next.mpr ⟨hbetween, hv, rfl⟩
  refine ⟨_, m, hpush, hi, fun d hd => ?_⟩
  have hq' : s.inq ++ [v] = v :: s.inq := by rw [hq]; rfl
  have hstep := step_of_atInstr (s := { s with inq := s.inq ++ [v] }) (.inr hrs) hi
  have hin := execInp_of_ok (s := { s with inq := s.inq ++ [v], rs := .running }) hq' hd
  exact ⟨_, hstep.trans hin, storedAndAdvanced_write { s with rs := .running }⟩

/-- Settles O51: the first pass of a terminal engine returns. -/
theorem terminalActivationRepeatsSignal : Obligations.TerminalActivationRepeatsSignal := by
  intro s t g
  exact ⟨fun hs => runStep_iff_of_returned (step_of_halted hs) rfl,
    fun hs => runStep_iff_of_returned (step_of_faulted hs) rfl⟩

/-! ### An activation that never returns -/

/-- At `pc` stands a JT with an Immediate condition that is not zero and its own address as Immediate target. -/
structure State.AtSelfJump (s : State) : Prop where
  active : s.rs = .running ∨ s.rs = .awaitingInput
  instr : s.AtInstr (.jt .immediate .immediate)
  within : s.pc + 2 < s.memCap
  condition : s.mem.read (s.pc + 1).toNat ≠ 0
  target : s.mem.read (s.pc + 2).toNat = s.pc

/-- A jump to itself continues where it stands. -/
theorem State.AtSelfJump.step {s : State} (h : s.AtSelfJump) :
    Machine.step s = .next (s.enterActivation.continueAt s.pc) := by
  obtain ⟨hs, hi, hcap, hc, ht⟩ := h
  have h0 : 0 ≤ s.pc := hi.1
  have hcond : readParam s.enterActivation 1 .immediate = .ok (s.mem.read (s.pc + 1).toNat) :=
    readParam_ok.mpr ⟨_, memRead_ok.mpr ⟨by show 0 ≤ s.pc + 1; omega, by show s.pc + 1 < s.memCap; omega, rfl⟩,
      .inl ⟨rfl, rfl⟩⟩
  have htarget : readParam s.enterActivation 2 .immediate = .ok s.pc :=
    readParam_ok.mpr ⟨_, memRead_ok.mpr ⟨by show 0 ≤ s.pc + 2; omega, hcap, rfl⟩, .inl ⟨rfl, ht.symm⟩⟩
  rw [step_of_atInstr hs hi]
  refine (jumpIf_of_ok hcond htarget).trans ?_
  rw [if_pos (decide_eq_true hc)]

/-- Settles O52: every pass continues at the same jump. -/
theorem selfJumpNeverReturns : Obligations.SelfJumpNeverReturns := by
  rintro s hs hi hcap hc ht ⟨g, t, h⟩
  have hself : ∀ u : State, u.AtSelfJump → ∃ t, step u = .next t ∧ t.act = .looping ∧ t.AtSelfJump :=
    fun u hu => ⟨_, hu.step, rfl, .inl rfl, hu.instr, hu.within, hu.condition, hu.target⟩
  exact not_runStep_of_forever hself ⟨hs, hi, hcap, hc, ht⟩ h

/-! ### The host's operations -/

/-- Settles O53. -/
theorem pushAppendsBetweenActivations : Obligations.PushAppendsBetweenActivations := by
  intro s v hv
  refine ⟨fun hact => pushInput_next.mpr ⟨hact, hv, rfl⟩, fun hact => ?_⟩
  simp [pushInput, State.between, hact]

/-- Settles O56: the cells are those `writeAll` writes into the empty memory, and zero beyond. -/
theorem constructionGivesResetState : Obligations.ConstructionGivesResetState := by
  intro cap program inputs h1 hmax hlen hprog hin
  refine ⟨_, construct_next.mpr ⟨h1, hmax, hlen, hprog, hin, rfl⟩, fun a => ?_, rfl, rfl, rfl, rfl, rfl, rfl, rfl, rfl, rfl⟩
  split
  · next ha => simpa using Memory.read_writeAll [] 0 program ha
  · next ha => exact Memory.read_writeAll_of_outside [] 0 program (.inr (by omega))

/-- Construction gives an engine or refuses. -/
theorem construct_next_or_refused (cap : Nat) (program inputs : List Int) :
    (∃ t, construct cap program inputs = .next t) ∨ ∃ r, construct cap program inputs = .refused r := by
  unfold construct
  split_ifs
  · exact .inr ⟨_, rfl⟩
  · exact .inr ⟨_, rfl⟩
  · exact .inl ⟨_, rfl⟩
  · exact .inr ⟨_, rfl⟩

/-- Settles O57: construction gives an engine only for legal arguments. -/
theorem constructionRefusesBadArguments : Obligations.ConstructionRefusesBadArguments := by
  intro cap program inputs hbad
  refine (construct_next_or_refused cap program inputs).resolve_left ?_
  rintro ⟨t, ht⟩
  obtain ⟨h1, hmax, hlen, hprog, hin, -⟩ := construct_next.mp ht
  unfold Config.memCapMax at hmax
  rcases hbad with h | h | h | h | h
  · omega
  · omega
  · omega
  · exact h hprog
  · exact h hin

end Sys2Proof.Machine
end

section
/-!
SUPPORT. What a step does not read (10_state.md section 5): what was output before, what was returned last, and what
stands in the queue behind its front. From these follows what fixes an activation.
-/

namespace Sys2Proof.Machine

/-! ### A state amid an older log and a longer queue -/

/-- `s` with `log` output before its own log, `q` queued behind its own queue, and activation status `a`. -/
def State.amid (s : State) (log q : List Int) (a : Activation) : State :=
  { s with outlog := log ++ s.outlog, inq := s.inq ++ q, act := a }

/-- The same of the next state, where there is one, whose activation status stays its own. -/
def amidInAnswer (log q : List Int) : Answer → Answer
  | .next t => .next (t.amid log q t.act)
  | .fault e => .fault e
  | .refused e => .refused e

@[simp] theorem amidInAnswer_next (log q : List Int) (t : State) :
    amidInAnswer log q (.next t) = .next (t.amid log q t.act) := rfl

section
variable (s : State) (log q : List Int) (a : Activation)

@[simp] theorem State.amid_pc : (s.amid log q a).pc = s.pc := rfl
@[simp] theorem State.amid_rb : (s.amid log q a).rb = s.rb := rfl
@[simp] theorem State.amid_inq : (s.amid log q a).inq = s.inq ++ q := rfl

@[simp] theorem checkAddr_amid (d : Int) : checkAddr (s.amid log q a) d = checkAddr s d := rfl

@[simp] theorem readParam_amid (k : Int) (m : Mode) : readParam (s.amid log q a) k m = readParam s k m := rfl

@[simp] theorem writeAddr_amid (k : Int) (m : Mode) : writeAddr (s.amid log q a) k m = writeAddr s k m := rfl

@[simp] theorem fetchDecode_amid : fetchDecode (s.amid log q a) = fetchDecode s := rfl

@[simp] theorem State.enterActivation_amid :
    (s.amid log q a).enterActivation = s.enterActivation.amid log q a := rfl

/-! ### The instructions -/

variable {s log q a}

/-- A fault taken changes neither log nor queue, so `orFault` commutes with `amid` where the rest does. -/
theorem orFault_amid {α : Type} {x : Except Raise α} {k k' : α → Answer}
    (h : ∀ b, k' b = amidInAnswer log q (k b)) :
    orFault (s.amid log q a) x k' = amidInAnswer log q (orFault s x k) := by
  cases x with
  | error e => rfl
  | ok b => exact h b

/-- How every storing instruction ends: the write into `s'` (for IN, `s` with the front of the queue removed) and the
advance. -/
theorem orFault_memWrite_amid (s' : State) (d v p : Int) :
    orFault (s.amid log q a) (memWrite (s'.amid log q a) d v) (fun t => .next (t.continueAt p)) =
      amidInAnswer log q (orFault s (memWrite s' d v) fun t => .next (t.continueAt p)) := by
  unfold memWrite
  rw [checkAddr_amid]
  cases checkAddr s' d with
  | error e => rfl
  | ok b => rfl

theorem storeResult_amid (f : Int → Int → Except Raise Int) (m1 m2 m3 : Mode) :
    storeResult f m1 m2 m3 (s.amid log q a) = amidInAnswer log q (storeResult f m1 m2 m3 s) := by
  simp only [storeResult, readParam_amid, writeAddr_amid, State.amid_pc]
  exact orFault_amid fun _ => orFault_amid fun _ => orFault_amid fun v => orFault_amid fun d =>
    orFault_memWrite_amid s d v (s.pc + 4)

theorem jumpIf_amid (p : Int → Bool) (m1 m2 : Mode) :
    jumpIf p m1 m2 (s.amid log q a) = amidInAnswer log q (jumpIf p m1 m2 s) := by
  simp only [jumpIf, readParam_amid, State.amid_pc]
  exact orFault_amid fun _ => orFault_amid fun _ => rfl

/-- IN sees whether the queue is empty, and its front. -/
theorem execInp_amid (hq : s.inq ≠ [] ∨ q = []) (m1 : Mode) :
    execInp m1 (s.amid log q a) = amidInAnswer log q (execInp m1 s) := by
  cases hs : s.inq with
  | nil =>
    obtain rfl := hq.resolve_left (not_not_intro hs)
    have hs' : (s.amid log [] a).inq = [] := by rw [State.amid_inq, hs]; rfl
    rw [execInp_of_empty hs, execInp_of_empty hs']
    rfl
  | cons v rest =>
    simp only [execInp, State.amid_inq, hs, List.cons_append, writeAddr_amid, State.amid_pc]
    exact orFault_amid fun d => orFault_memWrite_amid { s with inq := rest } d v (s.pc + 2)

theorem execOut_amid (m1 : Mode) : execOut m1 (s.amid log q a) = amidInAnswer log q (execOut m1 s) := by
  simp only [execOut, readParam_amid]
  refine orFault_amid fun v => ?_
  have hlog : log ++ s.outlog ++ [v] = log ++ (s.outlog ++ [v]) := List.append_assoc ..
  simp only [State.amid, State.returnSignal, amidInAnswer_next, hlog]

theorem execArb_amid (m1 : Mode) : execArb m1 (s.amid log q a) = amidInAnswer log q (execArb m1 s) := by
  simp only [execArb, readParam_amid, State.amid_rb, State.amid_pc]
  exact orFault_amid fun _ => orFault_amid fun _ => rfl

theorem exec_amid (hq : s.inq ≠ [] ∨ q = []) (i : Instr) :
    exec i (s.amid log q a) = amidInAnswer log q (exec i s) := by
  cases i with
  | add | mul | lt | eq => exact storeResult_amid ..
  | jt | jf => exact jumpIf_amid ..
  | inp => exact execInp_amid hq _
  | out => exact execOut_amid _
  | arb => exact execArb_amid _
  | hlt => rfl

/-- A step does the same amid any older log, any longer queue and any activation status, but for the queue of an IN that
would suspend. -/
theorem step_amid (hq : s.inq ≠ [] ∨ q = []) : step (s.amid log q a) = amidInAnswer log q (step s) := by
  have hactive : s.rs = .running ∨ s.rs = .awaitingInput →
      step (s.amid log q a) = amidInAnswer log q (step s) := by
    intro hs
    rw [step_of_active hs, step_of_active (s := s.amid log q a) hs, fetchDecode_amid, State.enterActivation_amid]
    exact orFault_amid fun i => exec_amid (s := s.enterActivation) hq i
  cases hs : s.rs with
  | running => exact hactive (.inl hs)
  | awaitingInput => exact hactive (.inr hs)
  | halted =>
    rw [step_of_halted hs, step_of_halted (s := s.amid log q a) hs]
    rfl
  | faulted =>
    rw [step_of_faulted hs, step_of_faulted (s := s.amid log q a) hs]
    rfl

end

/-- Settles O54: `amid` no older log. -/
theorem laterInputsWaitBehind : Obligations.LaterInputsWaitBehind := by
  intro s t q hq h
  have hstep : step (s.amid [] q s.act) = amidInAnswer [] q (step s) := step_amid (.inl hq)
  rw [h] at hstep
  exact hstep

/-! ### The log is appended to and never read -/

/-- A step from any other log and activation status does the same and appends the same. -/
theorem step_other_log {s t : State} (h : step s = .next t) :
    ∃ d, t.outlog = s.outlog ++ d ∧
      ∀ (log : List Int) (a : Activation),
        step { s with outlog := log, act := a } = .next { t with outlog := log ++ d } := by
  obtain ⟨t₀, ht₀⟩ := everyStepAnswersNext { s with outlog := [] }
  have hstep : ∀ (log : List Int) (a : Activation),
      step { s with outlog := log, act := a } = .next { t₀ with outlog := log ++ t₀.outlog } := by
    intro log a
    have hamid := step_amid (s := { s with outlog := [] }) (log := log) (q := []) (a := a) (.inr rfl)
    rw [ht₀] at hamid
    simpa only [State.amid, List.append_nil, amidInAnswer_next] using hamid
  obtain rfl : { t₀ with outlog := s.outlog ++ t₀.outlog } = t :=
    Host.Outcome.next.inj ((hstep s.outlog s.act).symm.trans h)
  exact ⟨t₀.outlog, rfl, hstep⟩

/-- Settles O55: the activation status stays that of `s`. -/
theorem outputLogIsNeverRead : Obligations.OutputLogIsNeverRead := by
  intro s t log h
  obtain ⟨d, hd, hstep⟩ := step_other_log h
  exact ⟨d, hd, hstep log s.act⟩

/-! ### What fixes an activation -/

/-- The values the last pass has sent out: those its signal carries, none inside an activation. -/
def State.sent (t : State) : List Int :=
  match t.act with
  | .notStarted => []
  | .looping => []
  | .returned g => g.outputs

theorem State.sent_of_looping {t : State} (h : t.act = .looping) : t.sent = [] := by
  simp only [State.sent, h]

theorem State.sent_of_returned {t : State} {g : Signal} (h : t.act = .returned g) : t.sent = g.outputs := by
  simp only [State.sent, h]

theorem step_outlog {s t : State} (h : step s = .next t) : t.outlog = s.outlog ++ t.sent := by
  obtain ⟨hlog, hno⟩ | ⟨v, m1, -, hlog, hact⟩ := outputLogGrowsByItsSignal s t h
  · have hsent : t.sent = [] := by
      unfold State.sent
      cases hact : t.act with
      | notStarted => rfl
      | looping => rfl
      | returned g =>
        cases g with
        | output v => exact absurd hact (hno v)
        | halt | needInput | fault => rfl
    rw [hlog, hsent, List.append_nil]
  · rw [hlog, State.sent_of_returned hact]
    rfl

/-- A step of an engine that is not terminal does the same from any other log, non-terminal run state and activation
status. -/
theorem step_other_start {s t : State} (hs : s.rs = .running ∨ s.rs = .awaitingInput) (h : step s = .next t)
    (log : List Int) {r : RunState} (hr : r = .running ∨ r = .awaitingInput) (a : Activation) :
    step { s with outlog := log, rs := r, act := a } = .next { t with outlog := log ++ t.sent } := by
  obtain ⟨d, hd, hstep⟩ := step_other_log h
  obtain rfl : t.sent = d := List.append_cancel_left ((step_outlog h).symm.trans hd)
  rw [← hstep log a, step_of_active (s := { s with outlog := log, rs := r, act := a }) hr,
    step_of_active (s := { s with outlog := log, act := a }) hs]
  rfl

/-- Inside an activation `rs` is Running (R82). -/
theorem step_looping_rs {s t : State} (h : step s = .next t) (hact : t.act = .looping) : t.rs = .running := by
  cases step_effect h with
  | halted _ ht | faulted _ ht | fetchFault _ _ _ ht => simp [ht] at hact
  | exec i _ _ _ he =>
    cases he with
    | store | input | jump | noJump | adjust => rfl
    | fault | suspend | output | halt => simp at hact

/-- An activation adds to the log what its signal carries, and returns the same from any other log, non-terminal run state
and activation status. -/
theorem RunStep.other_start {s t : State} {g : Signal} (h : RunStep s g t)
    (hs : s.rs = .running ∨ s.rs = .awaitingInput) :
    t.outlog = s.outlog ++ g.outputs ∧
      ∀ (log : List Int) (r : RunState) (a : Activation), (r = .running ∨ r = .awaitingInput) →
        RunStep { s with outlog := log, rs := r, act := a } g { t with outlog := log ++ g.outputs } := by
  induction h with
  | stop hu hg =>
    refine ⟨State.sent_of_returned hg ▸ step_outlog hu, fun log r a hr => ?_⟩
    have hstep := step_other_start hs hu log hr a
    rw [State.sent_of_returned hg] at hstep
    exact .stop hstep hg
  | @loop s u t g hu hl _ ih =>
    have hsent := State.sent_of_looping hl
    obtain ⟨hlog, hrun⟩ := ih (.inl (step_looping_rs hu hl))
    have hu' : u.outlog = s.outlog := by rw [step_outlog hu, hsent, List.append_nil]
    refine ⟨hu' ▸ hlog, fun log r a hr => ?_⟩
    have hstep := step_other_start hs hu log hr a
    rw [hsent, List.append_nil] at hstep
    exact .loop hstep hl (hrun log u.rs u.act (.inl (step_looping_rs hu hl)))

/-- Settles O47: the activation named returns from the other start, and an activation has one outcome at most. -/
theorem activationIsDeterministic : Obligations.ActivationIsDeterministic := by
  intro s t g hs h
  obtain ⟨hlog, hrun⟩ := h.other_start hs
  refine ⟨hlog, fun log r a hr g' t' => ⟨fun h' => (hrun log r a hr).unique h', ?_⟩⟩
  rintro ⟨rfl, rfl⟩
  exact hrun log r a hr

end Sys2Proof.Machine
end
